-- ==== Sys2Proof/Word.lean ====
section
/-! DEFINITION. The words of the QRL StripCode core: unsigned bit vectors, bit 0 least significant (spec/00_scope.md
R5, R6). Only the types stand here; every operation on them stands under Machine/. -/

namespace Sys2Proof

/-- One 8-bit value read as an element of GF(2^8) (spec/00_scope.md, glossary "Symbol"). -/
abbrev Symbol := BitVec 8

/-- One column of the grid as a byte: bit `y` is row `y` (spec/10_state.md R28). -/
abbrev Column := BitVec 8

/-- The 32-bit unit of every host access and of every command (spec/20_memory.md R62, spec/30_encoding.md R90). -/
abbrev Word := BitVec 32

end Sys2Proof
end

