-- ==== Sys2Proof/Config.lean ====
section
/-! DEFINITION. What is fixed for the machine: the parameters of spec/00_scope.md section 4 (R4: they have exactly
these values) and the two values the spec leaves open, as constants without a body. -/

namespace Sys2Proof.Config

/-- HEIGHT, the grid's rows. -/
@[simp] abbrev height : Nat := 8

/-- MAX_CHARS_PER_CHUNK = MSG_CAP, the largest chunk length. -/
@[simp] abbrev msgCap : Nat := 40

/-- ECC_CAP, the largest parity count the block accepts. -/
@[simp] abbrev eccCap : Nat := 10

/-- GRID_CAP, the columns of the grid buffer. -/
@[simp] abbrev gridCap : Nat := 111

/-- PRIM_POLY, the field's reduction polynomial x^8+x^4+x^3+x^2+1. -/
@[simp] abbrev primPoly : Nat := 0x11d

/-- PAYLOAD_MAX = 255 * 40 symbols. -/
@[simp] abbrev payloadMax : Nat := 10200

/-- The largest symbol, sequence index and chunk total a checked write accepts (spec/20_memory.md R65). -/
@[simp] abbrev byteMax : Nat := 255

/-- LOG[0], which the spec leaves unspecified (spec/10_state.md R22: "its content is unspecified"; spec/93: "any
value"). A free value: it has no body, so nothing can be proved of it. DESIGN CHOICE, safe: log entry 5. -/
opaque logZero : Symbol

/-- QRL_BASE, the window's base in the host's own address map (spec/20_memory.md R60, spec/92 D41: OPEN, a
parameter). Nothing in the block depends on it. DESIGN CHOICE, safe: log entry 12. -/
opaque qrlBase : Nat

end Sys2Proof.Config
end

