-- ==== Sys2Proof/Syntax.lean ====
section
/-! DEFINITION. The 18 commands, one constructor per row of spec/opcode_table.json. Symbols and the 4-bit column value
are bit vectors; an index, a count or a length is a Nat, whose range WellFormed.lean checks; M is a Bool. -/

namespace Sys2Proof

/-- A command of the set QRL-SC/1 (spec/30_encoding.md section 3). -/
inductive Instr where
  /-- NOP (spec/45_system.md R240). -/
  | nop
  /-- GF_MUL a, b (spec/40_gf_arithmetic.md R125). -/
  | gfMul (a b : Symbol)
  /-- GF_EXP i, a table index (R126). -/
  | gfExp (i : Nat)
  /-- GF_LOG a (R127). -/
  | gfLog (a : Symbol)
  /-- ECC_COUNT L, a chunk length (spec/41_reed_solomon.md R146). -/
  | eccCount (len : Nat)
  /-- RS_GEN n, a parity count (R147). -/
  | rsGen (n : Nat)
  /-- RS_REM (R148). -/
  | rsRem
  /-- RS_ENCODE n (R149). -/
  | rsEncode (n : Nat)
  /-- RS_SYND n (R151). -/
  | rsSynd (n : Nat)
  /-- GRID_INIT W, a width in columns (spec/44_grid_assembler.md R214). -/
  | gridInit (w : Nat)
  /-- COL_WRITE v with M = isMeta (spec/43_column_writer.md R192). -/
  | colWrite (v : BitVec 4) (isMeta : Bool)
  /-- BYTE_WRITE d with M = isMeta (R193). -/
  | byteWrite (d : Symbol) (isMeta : Bool)
  /-- FINDER_L (spec/44_grid_assembler.md R215). -/
  | finderL
  /-- SKIP k columns (spec/43_column_writer.md R194). -/
  | skip (k : Nat)
  /-- FINDER_R (spec/44_grid_assembler.md R216). -/
  | finderR
  /-- ASSEMBLE (R217). -/
  | assemble
  /-- PLAN P, a payload length (spec/42_chunk_planner.md R171). -/
  | plan (len : Nat)
  /-- SEL_CHUNK k, a chunk index (R172). -/
  | selChunk (k : Nat)
  deriving DecidableEq, Repr

end Sys2Proof
end

