-- ==== Sys2Proof/WellFormed.lean ====
section
/-! DEFINITION. Which commands have a word: an operand that is a number must fit its field (spec/30_encoding.md R91,
R92). A value that fits but that the command refuses (PLAN above 10200, GRID_INIT 0) is well formed: the command runs
and raises its error. -/

namespace Sys2Proof

/-- An operand of format A fits the 8-bit field A = w[15:8]. -/
def fitsA (n : Nat) : Bool := n < 2 ^ 8

/-- An operand of format I9 fits the 9-bit field I = w[16:8]. -/
def fitsI9 (n : Nat) : Bool := n < 2 ^ 9

/-- An operand of format I16 fits the 16-bit field P = w[23:8]. -/
def fitsI16 (n : Nat) : Bool := n < 2 ^ 16

/-- The command can be encoded: every number fits its field. -/
def Instr.wellFormed : Instr → Bool
  | .nop => true
  | .gfMul _ _ => true
  | .gfExp i => fitsI9 i
  | .gfLog _ => true
  | .eccCount len => fitsA len
  | .rsGen n => fitsA n
  | .rsRem => true
  | .rsEncode n => fitsA n
  | .rsSynd n => fitsA n
  | .gridInit w => fitsA w
  | .colWrite _ _ => true
  | .byteWrite _ _ => true
  | .finderL => true
  | .skip k => fitsA k
  | .finderR => true
  | .assemble => true
  | .plan len => fitsI16 len
  | .selChunk k => fitsA k

end Sys2Proof
end

