-- ==== Sys2Proof/Decode.lean ====
section
/-! DEFINITION. Decoding a command word, total on all 2^32 words and rejecting by name (spec/30_encoding.md R90 to
R95), and encoding a command (R96). -/

namespace Sys2Proof

/-- The seven formats of spec/30_encoding.md R91. -/
inductive Format where
  | n | a | ab | i9 | i16 | col | byte
  deriving DecidableEq, Repr

/-- Why a word is no command (R93, R94). The block goes on: the step raises the error code of the same name. -/
inductive DecodeError where
  /-- The opcode byte is not in the opcode map. -/
  | illegalOpcode
  /-- The opcode is defined and a reserved bit of its format is 1. -/
  | reservedBits
  deriving DecidableEq, Repr

/-- The reserved mask of each format, the last column of R91's table. -/
def reservedMask : Format → Word
  | .n => 0xFFFFFF00#32
  | .a => 0xFFFF0000#32
  | .ab => 0xFF000000#32
  | .i9 => 0xFFFE0000#32
  | .i16 => 0xFF000000#32
  | .col => 0xFFFEF000#32
  | .byte => 0xFFFE0000#32

/-- OP = w[7:0]. -/
def opField (w : Word) : BitVec 8 := w.extractLsb' 0 8
/-- A = w[15:8]. -/
def aField (w : Word) : BitVec 8 := w.extractLsb' 8 8
/-- B = w[23:16]. -/
def bField (w : Word) : BitVec 8 := w.extractLsb' 16 8
/-- I = w[16:8]. -/
def iField (w : Word) : BitVec 9 := w.extractLsb' 8 9
/-- P = w[23:8]. -/
def pField (w : Word) : BitVec 16 := w.extractLsb' 8 16
/-- V = w[11:8]. -/
def vField (w : Word) : BitVec 4 := w.extractLsb' 8 4
/-- D = w[15:8]. -/
def dField (w : Word) : BitVec 8 := w.extractLsb' 8 8
/-- M = w[16]. -/
def mField (w : Word) : Bool := w.getLsbD 16

/-- The reserved-bit check of R93, made before the fields are extracted. -/
def checked (f : Format) (w : Word) (i : Instr) : Except DecodeError Instr :=
  if w &&& reservedMask f ≠ 0#32 then .error .reservedBits else .ok i

/-- Decode(w) of R93 over the opcode map of section 3: the opcode first, then the reserved bits (R95). -/
def decode (w : Word) : Except DecodeError Instr :=
  match (opField w).toNat with
  | 0x00 => checked .n w .nop
  | 0x01 => checked .ab w (.gfMul (aField w) (bField w))
  | 0x02 => checked .i9 w (.gfExp (iField w).toNat)
  | 0x03 => checked .a w (.gfLog (aField w))
  | 0x10 => checked .a w (.eccCount (aField w).toNat)
  | 0x11 => checked .a w (.rsGen (aField w).toNat)
  | 0x12 => checked .n w .rsRem
  | 0x13 => checked .a w (.rsEncode (aField w).toNat)
  | 0x14 => checked .a w (.rsSynd (aField w).toNat)
  | 0x20 => checked .a w (.gridInit (aField w).toNat)
  | 0x21 => checked .col w (.colWrite (vField w) (mField w))
  | 0x22 => checked .byte w (.byteWrite (dField w) (mField w))
  | 0x23 => checked .n w .finderL
  | 0x24 => checked .a w (.skip (aField w).toNat)
  | 0x25 => checked .n w .finderR
  | 0x26 => checked .n w .assemble
  | 0x30 => checked .i16 w (.plan (pField w).toNat)
  | 0x31 => checked .a w (.selChunk (aField w).toNat)
  | _ => .error .illegalOpcode

/-- A word of format N. -/
def wordN (op : BitVec 8) : Word := 0#24 ++ op
/-- A word of format A. -/
def wordA (op a : BitVec 8) : Word := 0#16 ++ a ++ op
/-- A word of format AB. -/
def wordAB (op a b : BitVec 8) : Word := 0#8 ++ b ++ a ++ op
/-- A word of format I9. -/
def wordI9 (op : BitVec 8) (i : BitVec 9) : Word := 0#15 ++ i ++ op
/-- A word of format I16. -/
def wordI16 (op : BitVec 8) (p : BitVec 16) : Word := 0#8 ++ p ++ op
/-- A word of format COL. -/
def wordCol (op : BitVec 8) (v : BitVec 4) (m : Bool) : Word := 0#15 ++ BitVec.ofBool m ++ 0#4 ++ v ++ op
/-- A word of format BYTE. -/
def wordByte (op d : BitVec 8) (m : Bool) : Word := 0#15 ++ BitVec.ofBool m ++ d ++ op

/-- The assembled word of a well-formed command (R96): the opcode with each field at its position of R91. -/
def encode : Instr → Word
  | .nop => wordN 0x00#8
  | .gfMul a b => wordAB 0x01#8 a b
  | .gfExp i => wordI9 0x02#8 (BitVec.ofNat 9 i)
  | .gfLog a => wordA 0x03#8 a
  | .eccCount len => wordA 0x10#8 (BitVec.ofNat 8 len)
  | .rsGen n => wordA 0x11#8 (BitVec.ofNat 8 n)
  | .rsRem => wordN 0x12#8
  | .rsEncode n => wordA 0x13#8 (BitVec.ofNat 8 n)
  | .rsSynd n => wordA 0x14#8 (BitVec.ofNat 8 n)
  | .gridInit w => wordA 0x20#8 (BitVec.ofNat 8 w)
  | .colWrite v m => wordCol 0x21#8 v m
  | .byteWrite d m => wordByte 0x22#8 d m
  | .finderL => wordN 0x23#8
  | .skip k => wordA 0x24#8 (BitVec.ofNat 8 k)
  | .finderR => wordN 0x25#8
  | .assemble => wordN 0x26#8
  | .plan len => wordI16 0x30#8 (BitVec.ofNat 16 len)
  | .selChunk k => wordA 0x31#8 (BitVec.ofNat 8 k)

/-- The instruction the decoder reads from a table word of `nbits` bits, the bits above them 0. A command is one
32-bit write (R90), so its number is the word itself; a number that needs more than 32 bits is no command. -/
def decodeTableWord (nbits w : Nat) : Option Instr :=
  if w % 2 ^ nbits < 2 ^ 32 then
    match decode (BitVec.ofNat 32 (w % 2 ^ nbits)) with
    | .ok i => some i
    | .error _ => none
  else none

end Sys2Proof
end

