-- ==== Sys2Proof/Machine/State.lean ====
section
/-! DEFINITION. The state of spec/10_state.md R20 as plain data, the reasons a step can stop, and the state after
reset. EXP and LOG are constants (R21, R22), so they stand in Machine/GaloisField.lean and not in the state. -/

namespace Sys2Proof.Machine

/-- The 15 codes STATUS.ERR takes (spec/60_exceptions.md R251; spec/93: "A model's code type may have exactly the 15
defined codes"). `errorCode` (Flags.lean) gives the 8-bit value. -/
inductive ErrCode where
  | ok | illegalOpcode | reservedBits | logOfZero | badEccCount | noGenerator | emptyMessage | badWidth
  | cursorOverflow | badSequence | tooManyChunks | invalidSymbol | badLength | badValue | readOnly
  deriving DecidableEq, Repr

/-- The registers of the window (spec/20_memory.md R61), one per mapped offset. -/
inductive Reg where
  | cmd | status | result | cursor | gridW | msgLen | seqIdx | seqTotal | payLen | genN
  | msg (t : Fin 40) | gen (j : Fin 10) | ecc (j : Fin 10) | syn (i : Fin 10) | gridCol (c : Fin 111)
  deriving DecidableEq, Repr

/-- What the outside world does to the block, one event at a time (spec/20_memory.md R62, R70; reset: spec/70 R280).
`addr` is the offset from QRL_BASE and `size` the width of the access in bytes. A read or write of any size and offset
can be asked for: the ones R63 excludes get BusError. -/
inductive BusEvent where
  /-- MemRead(addr, size). -/
  | read (addr size : Nat)
  /-- MemWrite(addr, size, v). -/
  | write (addr size : Nat) (v : Word)
  /-- The platform asserts reset, between two host accesses. -/
  | reset
  deriving DecidableEq, Repr

/-- What the block answered to the latest event. The model's own: it is the host's end of the bus, and no rule of the
block reads it (log entry 3). -/
inductive Response where
  /-- Nothing answered since reset. -/
  | idle
  /-- A read returned this word. -/
  | data (v : Word)
  /-- A write completed. -/
  | written
  deriving DecidableEq, Repr

/-- The block's registers, each under the spec's name and with the spec's width, and two fields of the model's own
(`pending`, `response`). -/
structure State where
  /-- MSG[0..39] (R23). -/
  msg : Vector Symbol 40
  /-- MSG_LEN, 6 bits (R24). -/
  msgLen : BitVec 6
  /-- GEN[0..9] (R25). -/
  gen : Vector Symbol 10
  /-- GEN_N, 4 bits (R26). -/
  genN : BitVec 4
  /-- ECC[0..9] (R27). -/
  ecc : Vector Symbol 10
  /-- GRID[0..7][0..110], held column by column: bit y of entry c is GRID[y][c] (R28). -/
  grid : Vector Column 111
  /-- GRID_W, 7 bits (R29). -/
  gridW : BitVec 7
  /-- X, the cursor, 7 bits (R30). -/
  x : BitVec 7
  /-- SEQ_IDX, 8 bits (R31). -/
  seqIdx : BitVec 8
  /-- SEQ_TOTAL, 8 bits (R32). -/
  seqTotal : BitVec 8
  /-- PAY_LEN, 14 bits (R33). -/
  payLen : BitVec 14
  /-- SYN[0..9] (R34). -/
  syn : Vector Symbol 10
  /-- RESULT, 16 bits (R35). -/
  result : BitVec 16
  /-- STATUS.ERR (R37). -/
  err : ErrCode
  /-- STATUS.STICKY (R37). -/
  sticky : Bool
  /-- The events the outside world has yet to issue, the next one first. The model's own (log entry 1). -/
  pending : List BusEvent
  /-- The answer to the latest event. The model's own (log entry 3). -/
  response : Response
  deriving DecidableEq, Repr

/-- Why a step stops. -/
inductive Fault where
  /-- BusError (spec/20_memory.md R63, spec/60 R253): the host's access is not 32 bits wide, not aligned or not mapped.
  Raised by a host read or write only, never by a command. It changes no state. Safe: the block itself would take the
  next access, which `respond` (Session.lean) says; a run of `step` stops here (log entry 2). -/
  | busError
  deriving DecidableEq, Repr

/-- Why an instruction has no meaning. -/
inductive Refusal where
  /-- The instruction's arm of exec has no meaning yet. Raised by no arm of this model. Safe. -/
  | notModelled (mnemonic : String)
  deriving DecidableEq, Repr

/-- The state after reset (spec/10_state.md R42, spec/70 R281): every register and every grid bit 0. The two fields of
the model's own hold nothing. -/
def State.reset : State where
  msg := Vector.replicate 40 0#8
  msgLen := 0#6
  gen := Vector.replicate 10 0#8
  genN := 0#4
  ecc := Vector.replicate 10 0#8
  grid := Vector.replicate 111 0#8
  gridW := 0#7
  x := 0#7
  seqIdx := 0#8
  seqTotal := 0#8
  payLen := 0#14
  syn := Vector.replicate 10 0#8
  result := 0#16
  err := .ok
  sticky := false
  pending := []
  response := .idle

/-- The three outcomes of this machine. -/
abbrev Outcome := Host.Outcome State Fault Refusal

end Sys2Proof.Machine
end

