-- ==== Sys2Proof/Machine/Flags.lean ====
section
/-! DEFINITION. STATUS, the block's only status bits (spec/10_state.md R37). No command sets a flag or a condition code
(R39): the error code and STICKY are all there is. -/

namespace Sys2Proof.Machine

/-- The 8-bit code of each error (spec/60_exceptions.md R251). -/
def errorCode : ErrCode → BitVec 8
  | .ok => 0x00#8
  | .illegalOpcode => 0x01#8
  | .reservedBits => 0x02#8
  | .logOfZero => 0x03#8
  | .badEccCount => 0x04#8
  | .noGenerator => 0x05#8
  | .emptyMessage => 0x06#8
  | .badWidth => 0x07#8
  | .cursorOverflow => 0x08#8
  | .badSequence => 0x09#8
  | .tooManyChunks => 0x0A#8
  | .invalidSymbol => 0x0B#8
  | .badLength => 0x0C#8
  | .badValue => 0x0D#8
  | .readOnly => 0x0E#8

/-- STATUS as the host reads it: ERR = [7:0], STICKY = [8], and [31:9] reads 0 (R37). -/
def statusWord (s : State) : Word := 0#23 ++ BitVec.ofBool s.sticky ++ errorCode s.err

/-- A write of v to STATUS: bit 8 is write-1-to-clear, every other bit is ignored, ERR keeps its value
(spec/20_memory.md R67). -/
def writeStatus (v : Word) (s : State) : State :=
  { s with sticky := s.sticky && !v.getLsbD 8 }

end Sys2Proof.Machine
end

