-- ==== Sys2Proof/Machine/Ops.lean ====
section
/-! DEFINITION. The operations every meaning shares: ending a command, raising an error, reading a register array,
and writing columns at the cursor. -/

namespace Sys2Proof.Machine

/-! ### Ending a command -/

/-- `raise Error(code)` (spec/60_exceptions.md R250): the block's whole exception entry. ERR takes the code, STICKY
becomes 1 and nothing else changes. There is no saved pc, mode or vector (R255) and no return (R256): the block then
takes the next access, and the host clears STICKY with `writeStatus`. -/
def raiseError (c : ErrCode) (s : State) : State := { s with err := c, sticky := true }

/-- `STATUS.ERR <- 0`, the last line of every command and checked write that succeeds (R251). -/
def succeed (s : State) : State := { s with err := .ok }

/-! ### Values and register arrays -/

/-- lo(v) = v & 0xF (spec/00_scope.md R12). -/
def lo (v : Symbol) : BitVec 4 := v.extractLsb' 0 4

/-- hi(v) = (v >> 4) & 0xF (R12). -/
def hi (v : Symbol) : BitVec 4 := v.extractLsb' 4 4

/-- Entry `i` of a register array; 0 beyond its end. -/
def entry {n : Nat} (v : Vector (BitVec 8) n) (i : Nat) : BitVec 8 := v.toList.getD i 0#8

/-- A register array whose first entries are `l` and whose others are 0, as `GEN[n..9] <- 0` asks
(spec/41_reed_solomon.md R147). -/
def pad (n : Nat) (l : List Symbol) : Vector Symbol n :=
  ⟨((l ++ List.replicate n 0#8).take n).toArray, by simp⟩

/-! ### The grid and its cursor -/

/-- GRIDCOL[c] (spec/10_state.md R28); 0 for c ≥ 111. -/
def gridColumn (s : State) (c : Nat) : Column := entry s.grid c

/-- GRID[y][c], row y of column c (R28, spec/00_scope.md R11). -/
def gridBit (s : State) (y c : Nat) : Bool := (gridColumn s c).getLsbD y

/-- Whether k columns fit in [X, GRID_W), the cursor check made before anything is written
(spec/43_column_writer.md section 2). -/
def columnsFit (k : Nat) (s : State) : Bool := s.x.toNat + k ≤ s.gridW.toNat

/-- X <- X + k. -/
def advance (k : Nat) (s : State) : State := { s with x := BitVec.ofNat 7 (s.x.toNat + k) }

/-- `GRIDCOL[X] <- c; X <- X + 1`. A column number the buffer does not have (only in states no run reaches) is
dropped: log entry 11. -/
def putColumn (c : Column) (s : State) : State :=
  advance 1 { s with grid := s.grid.setIfInBounds s.x.toNat c }

/-- The columns of a list, written left to right at the cursor. -/
def putColumns : List Column → State → State
  | [], s => s
  | c :: cs, s => putColumns cs (putColumn c s)

/-- All 111 columns cleared, GRID_W = w, X = 0 (spec/44_grid_assembler.md R214). -/
def clearGrid (w : Nat) (s : State) : State :=
  { s with grid := Vector.replicate 111 0#8, gridW := BitVec.ofNat 7 w, x := 0#7 }

end Sys2Proof.Machine
end

