-- ==== Sys2Proof/Machine/Operands.lean ====
section
/-! DEFINITION. The operand registers of the commands (spec/10_state.md R38, spec/30_encoding.md R92): what a command
reads besides the fields of its word. -/

namespace Sys2Proof.Machine

/-- L = MSG_LEN (spec/41_reed_solomon.md section 2). -/
def chunkLength (s : State) : Nat := s.msgLen.toNat

/-- MSG[0..L-1], the symbols of the current chunk (spec/10_state.md R23). -/
def message (s : State) : List Symbol := s.msg.toList.take (chunkLength s)

/-- GEN[0..GEN_N-1], the generator last built (R25, R26). -/
def currentGenerator (s : State) : List Symbol := s.gen.toList.take s.genN.toNat

/-- ECC[0..n-1] (R27). -/
def parity (n : Nat) (s : State) : List Symbol := s.ecc.toList.take n

/-- sequenceIndex = SEQ_IDX + 1, as the byte the metadata holds; it fits under the precondition of R213
(spec/10_state.md R31). -/
def sequenceId (s : State) : Symbol := s.seqIdx + 1#8

/-- The precondition of FINDER_R and ASSEMBLE: 1 ≤ SEQ_TOTAL and SEQ_IDX < SEQ_TOTAL
(spec/44_grid_assembler.md R213). -/
def sequenceLegal (s : State) : Bool := 1 ≤ s.seqTotal.toNat && s.seqIdx.toNat < s.seqTotal.toNat

/-- 1 ≤ n ≤ ECC_CAP, the range RS_GEN, RS_ENCODE and RS_SYND check (spec/92 D25). -/
def eccCountLegal (n : Nat) : Bool := 1 ≤ n && n ≤ Config.eccCap

end Sys2Proof.Machine
end

