-- ==== Sys2Proof/Machine/ReedSolomon.lean ====
section
/-! DEFINITION. ReedSolomonEncoder (spec/41_reed_solomon.md, with the readings of spec/90_conflicts.md C1, C2, C6, C7):
the ECC count, the generator builder, the remainder, the syndrome, and the meanings of ECC_COUNT, RS_GEN, RS_REM,
RS_ENCODE and RS_SYND. A polynomial is a list of symbols, highest degree first (spec/00_scope.md R9). -/

namespace Sys2Proof.Machine

/-- eccCount(L) = max(4, ceil(L / 4)) (R140). -/
def eccCount (len : Nat) : Nat := max 4 ((len + 3) / 4)

/-- The constant polynomial 1, right-aligned in n entries: the initial vector of R141. -/
def constantOne (n : Nat) : List Symbol := (List.replicate n 0#8).set (n - 1) 1#8

/-- One pass of R141's outer loop, multiplying by (x + e): `g[j] <- (g[j] ⊗ e) ^ g[j+1]`, with 0 for g[n]. The loop
runs upwards, so g[j+1] is still the old value. -/
def multiplyByRoot (e : Symbol) (g : List Symbol) : List Symbol :=
  List.zipWith (fun a b => gfMul a e ^^^ b) g (g.tail ++ [0#8])

/-- Gen(n) (R141). -/
def generator (n : Nat) : List Symbol :=
  (List.range n).foldl (fun g i => multiplyByRoot (expTable i) g) (constantOne n)

/-- XOR of the second list into the front of the first. -/
def xorInto : List Symbol → List Symbol → List Symbol
  | p :: ps, q :: qs => (p ^^^ q) :: xorInto ps qs
  | ps, [] => ps
  | [], _ => []

/-- One pass of R143's outer loop, at the first entry of what is left of the working polynomial: its coefficient,
already updated by the passes before, is divided out of the n entries after it. That entry is not read again, so it
is dropped. -/
def divideOnce (g : List Symbol) : List Symbol → List Symbol
  | [] => []
  | coef :: rest => if coef = 0#8 then rest else xorInto rest (g.map (gfMul coef))

/-- `k` passes of R143's outer loop. -/
def divideTimes (g : List Symbol) : Nat → List Symbol → List Symbol
  | 0, poly => poly
  | k + 1, poly => divideTimes g k (divideOnce g poly)

/-- Rem(m, g) (R143): the message followed by n zeros, divided once for each symbol; the last n entries are left. -/
def remainder (m g : List Symbol) : List Symbol :=
  divideTimes g m.length (m ++ List.replicate g.length 0#8)

/-- Synd(c, i) = c(α^i) by Horner's rule (R145). -/
def syndrome (c : List Symbol) (i : Nat) : Symbol :=
  c.foldl (fun acc sym => gfMul acc (expTable i) ^^^ sym) 0#8

/-- `SYN[0..n-1]` of R151 for the codeword c. -/
def syndromes (c : List Symbol) (n : Nat) : List Symbol := (List.range n).map (syndrome c)

/-! ### The commands -/

/-- `GEN[0..n-1] <- Gen(n); GEN[n..9] <- 0; GEN_N <- n` (R147). -/
def installGenerator (n : Nat) (s : State) : State :=
  { s with gen := pad 10 (generator n), genN := BitVec.ofNat 4 n }

/-- `ECC[0..n-1] <- Rem(MSG[0..L-1], g); ECC[n..9] <- 0` for the n-entry generator g (R148). -/
def installRemainder (g : List Symbol) (s : State) : State :=
  { s with ecc := pad 10 (remainder (message s) g) }

/-- The source's encode: build Gen(n), then the parity of the message under it (R149). -/
def encodeMessage (n : Nat) (s : State) : State := installRemainder (generator n) (installGenerator n s)

/-- ECC_COUNT L (R146): every 8-bit L is accepted. -/
def execEccCount (len : Nat) (s : State) : Outcome := .next (succeed (setResult (eccCount len) s))

/-- RS_GEN n (R147). -/
def execRsGen (n : Nat) (s : State) : Outcome :=
  if eccCountLegal n then .next (succeed (installGenerator n s)) else .next (raiseError .badEccCount s)

/-- RS_REM (R148): the generator that GEN holds, whatever MSG_LEN is. -/
def execRsRem (s : State) : Outcome :=
  if s.genN = 0#4 then .next (raiseError .noGenerator s)
  else if s.msgLen = 0#6 then .next (raiseError .emptyMessage s)
  else .next (succeed (installRemainder (currentGenerator s) s))

/-- RS_ENCODE n (R149). -/
def execRsEncode (n : Nat) (s : State) : Outcome :=
  if eccCountLegal n then
    if s.msgLen = 0#6 then .next (raiseError .emptyMessage s)
    else .next (succeed (encodeMessage n s))
  else .next (raiseError .badEccCount s)

/-- RS_SYND n (R151): the syndromes of MSG[0..L-1] ++ ECC[0..n-1], and RESULT = 1 exactly when all are 0. -/
def execRsSynd (n : Nat) (s : State) : Outcome :=
  if eccCountLegal n then
    if s.msgLen = 0#6 then .next (raiseError .emptyMessage s)
    else
      let syn := syndromes (message s ++ parity n s) n
      .next (succeed (setResult (if syn.all (· == 0#8) then 1 else 0) { s with syn := pad 10 syn }))
  else .next (raiseError .badEccCount s)

end Sys2Proof.Machine
end

