-- ==== Sys2Proof/Machine/ChunkPlanner.lean ====
section
/-! DEFINITION. ChunkPlanner (spec/42_chunk_planner.md): the plan's arithmetic and the meanings of PLAN and SEL_CHUNK.
The block holds no payload: the host moves the symbols (R173). -/

namespace Sys2Proof.Machine

/-- T(P) = ceil(P / 40) (R170). -/
def chunkCount (len : Nat) : Nat := (len + 39) / Config.msgCap

/-- offset(P, k) = 40 k (R170). -/
def chunkOffset (k : Nat) : Nat := Config.msgCap * k

/-- len(P, k) = min(40, P - 40 k) (R170). -/
def chunkLen (len k : Nat) : Nat := min Config.msgCap (len - chunkOffset k)

/-- PLAN P (R171). -/
def execPlan (len : Nat) (s : State) : Outcome :=
  if len > Config.payloadMax then .next (raiseError .tooManyChunks s)
  else .next (succeed (setResult (chunkCount len)
    { s with payLen := BitVec.ofNat 14 len, seqTotal := BitVec.ofNat 8 (chunkCount len), seqIdx := 0#8 }))

/-- SEL_CHUNK k (R172). -/
def execSelChunk (k : Nat) (s : State) : Outcome :=
  if chunkOffset k ≥ s.payLen.toNat then .next (raiseError .badSequence s)
  else .next (succeed (setResult (chunkOffset k)
    { s with seqIdx := BitVec.ofNat 8 k, msgLen := BitVec.ofNat 6 (chunkLen s.payLen.toNat k) }))

end Sys2Proof.Machine
end

