-- ==== Sys2Proof/Machine/ColumnWriter.lean ====
section
/-! DEFINITION. ColumnWriter (spec/43_column_writer.md, with the readings of spec/90_conflicts.md C4 and C10): the
column function and the meanings of COL_WRITE, BYTE_WRITE and SKIP. -/

namespace Sys2Proof.Machine

/-- inv(r) of R190, the masking condition at row r of column x. -/
def inverted (x r : Nat) (isMeta : Bool) : Bool := !isMeta && (r + x) % 2 == 0

/-- Row r of Col(x, v, m) (R190): the two clock rows are never masked, the others are. -/
def columnRow (x : Nat) (v : BitVec 4) (isMeta : Bool) (r : Nat) : Bool :=
  match r with
  | 0 => x % 2 == 0
  | 7 => x % 2 == 1
  | 5 => xor true (inverted x 5 isMeta)
  | 6 => xor false (inverted x 6 isMeta)
  | r => xor (v.getLsbD (r - 1)) (inverted x r isMeta)

/-- Σ row r · 2^r over the eight rows (R190). -/
def packRows (row : Nat → Bool) : Column :=
  BitVec.ofNat 8 (((List.range Config.height).map (fun r => (row r).toNat * 2 ^ r)).sum)

/-- Col(x, v, m) (R190). -/
def columnOf (x : Nat) (v : BitVec 4) (isMeta : Bool) : Column := packRows (columnRow x v isMeta)

/-- A byte as two columns, the low nibble at the cursor and the high nibble after it (R193), and the cursor moved. -/
def putByte (isMeta : Bool) (d : Symbol) (s : State) : State :=
  putColumns [columnOf s.x.toNat (lo d) isMeta, columnOf (s.x.toNat + 1) (hi d) isMeta] s

/-- The bytes of a list, each as two columns, left to right. -/
def putBytes (isMeta : Bool) : List Symbol → State → State
  | [], s => s
  | d :: ds, s => putBytes isMeta ds (putByte isMeta d s)

/-! ### The commands -/

/-- COL_WRITE v, m (R192). -/
def execColWrite (v : BitVec 4) (isMeta : Bool) (s : State) : Outcome :=
  if columnsFit 1 s then .next (succeed (putColumn (columnOf s.x.toNat v isMeta) s))
  else .next (raiseError .cursorOverflow s)

/-- BYTE_WRITE d, m (R193). -/
def execByteWrite (d : Symbol) (isMeta : Bool) (s : State) : Outcome :=
  if columnsFit 2 s then .next (succeed (putByte isMeta d s)) else .next (raiseError .cursorOverflow s)

/-- SKIP k (R194): the skipped columns keep their value. -/
def execSkip (k : Nat) (s : State) : Outcome :=
  if columnsFit k s then .next (succeed (advance k s)) else .next (raiseError .cursorOverflow s)

end Sys2Proof.Machine
end

