-- ==== Sys2Proof/Machine/GridAssembler.lean ====
section
/-! DEFINITION. GridAssembler (spec/44_grid_assembler.md): the finder columns, the width, and the meanings of
GRID_INIT, FINDER_L, FINDER_R and ASSEMBLE. -/

namespace Sys2Proof.Machine

/-- The left finder's column, 0xE7: a row is set iff y ≤ 2 or y ≥ 5 (R212). -/
def leftFinderColumn : Column := packRows (fun y => decide (y ≤ 2 ∨ 5 ≤ y))

/-- FR(c): rows 0, 1, 6, 7 set, rows 3 and 4 the centre bit, rows 2 and 5 clear (R213). -/
def rightFinderColumn (centre : Bool) : Column :=
  packRows (fun y => if y ≤ 1 ∨ 6 ≤ y then true else if y = 3 ∨ y = 4 then centre else false)

/-- (leftBit, rightBit) of R213 for s = SEQ_IDX + 1: both for the last chunk, else the left one when s is even and the
right one when it is odd. -/
def rightFinderBits (idx total : Nat) : Bool × Bool :=
  if idx + 1 = total then (true, true)
  else if (idx + 1) % 2 = 0 then (true, false)
  else (false, true)

/-- The two right-finder columns for the state's SEQ_IDX and SEQ_TOTAL. -/
def rightFinderColumns (s : State) : List Column :=
  let bits := rightFinderBits s.seqIdx.toNat s.seqTotal.toNat
  [rightFinderColumn bits.1, rightFinderColumn bits.2]

/-- The three left-finder columns. -/
def leftFinderColumns : List Column := List.replicate 3 leftFinderColumn

/-- W(L) = 11 + 2L + 2 eccCount(L) (R210). -/
def lineWidth (len : Nat) : Nat := 11 + 2 * len + 2 * eccCount len

/-- The line of R217 for the MSG, ECC and sequence registers of s, drawn into a fresh grid: the seven steps of R211
from left to right. -/
def drawLine (s : State) : State :=
  clearGrid (lineWidth (chunkLength s)) s
    |> putColumns leftFinderColumns
    |> advance 1
    |> putByte true (sequenceId s)
    |> putByte true s.seqTotal
    |> putBytes false (message s ++ parity (eccCount (chunkLength s)) s)
    |> advance 1
    |> putColumns (rightFinderColumns s)

/-! ### The commands -/

/-- GRID_INIT w (R214). -/
def execGridInit (w : Nat) (s : State) : Outcome :=
  if w < 1 ∨ w > Config.gridCap then .next (raiseError .badWidth s) else .next (succeed (clearGrid w s))

/-- FINDER_L (R215), at the cursor. -/
def execFinderL (s : State) : Outcome :=
  if columnsFit 3 s then .next (succeed (putColumns leftFinderColumns s))
  else .next (raiseError .cursorOverflow s)

/-- FINDER_R (R216), at the cursor: the sequence check comes before the cursor check. -/
def execFinderR (s : State) : Outcome :=
  if sequenceLegal s then
    if columnsFit 2 s then .next (succeed (putColumns (rightFinderColumns s) s))
    else .next (raiseError .cursorOverflow s)
  else .next (raiseError .badSequence s)

/-- ASSEMBLE (R217): the parity with n = eccCount(L), the whole line, and RESULT = W. -/
def execAssemble (s : State) : Outcome :=
  if s.msgLen = 0#6 then .next (raiseError .emptyMessage s)
  else if sequenceLegal s then
    .next (succeed (setResult (lineWidth (chunkLength s))
      (drawLine (encodeMessage (eccCount (chunkLength s)) s))))
  else .next (raiseError .badSequence s)

end Sys2Proof.Machine
end

