-- ==== Sys2Proof/Machine/System.lean ====
section
/-! DEFINITION. NOP (spec/45_system.md R240). The block has no control transfer and no system command (R241, R242). -/

namespace Sys2Proof.Machine

/-- NOP (R240): STATUS.ERR <- 0 and nothing else; STICKY stays. -/
def execNop (s : State) : Outcome := .next (succeed s)

end Sys2Proof.Machine
end

