-- ==== Sys2Proof/Machine/Dispatch.lean ====
section
/-! DEFINITION. The meaning of every command, one arm per constructor of Instr. -/

namespace Sys2Proof.Machine

def exec (i : Instr) (s : State) : Host.Outcome State Fault Refusal :=
  match i with
  | .nop => Sys2Proof.Machine.execNop s
  | .gfMul a b => Sys2Proof.Machine.execGfMul a b s
  | .gfExp n => Sys2Proof.Machine.execGfExp n s
  | .gfLog a => Sys2Proof.Machine.execGfLog a s
  | .eccCount len => Sys2Proof.Machine.execEccCount len s
  | .rsGen n => Sys2Proof.Machine.execRsGen n s
  | .rsRem => Sys2Proof.Machine.execRsRem s
  | .rsEncode n => Sys2Proof.Machine.execRsEncode n s
  | .rsSynd n => Sys2Proof.Machine.execRsSynd n s
  | .gridInit w => Sys2Proof.Machine.execGridInit w s
  | .colWrite v m => Sys2Proof.Machine.execColWrite v m s
  | .byteWrite d m => Sys2Proof.Machine.execByteWrite d m s
  | .finderL => Sys2Proof.Machine.execFinderL s
  | .skip k => Sys2Proof.Machine.execSkip k s
  | .finderR => Sys2Proof.Machine.execFinderR s
  | .assemble => Sys2Proof.Machine.execAssemble s
  | .plan len => Sys2Proof.Machine.execPlan len s
  | .selChunk k => Sys2Proof.Machine.execSelChunk k s

end Sys2Proof.Machine
end

