-- ==== Sys2Proof/Machine/Bus.lean ====
section
/-! DEFINITION. The register window (spec/20_memory.md): which register an access reaches, what a read returns, what a
write does (a write to CMD executes a command), and one event of the outside world. -/

namespace Sys2Proof.Machine

/-! ### The register map (R61) -/

/-- The index of an array of n words that starts at `base`. -/
def arrayIndex (base n addr : Nat) : Option (Fin n) :=
  if h : base ≤ addr ∧ (addr - base) / 4 < n then some ⟨(addr - base) / 4, h.2⟩ else none

/-- The register of an aligned offset, `none` where the map lists nothing. -/
def regAt (addr : Nat) : Option Reg :=
  match addr with
  | 0x000 => some .cmd
  | 0x004 => some .status
  | 0x008 => some .result
  | 0x00C => some .cursor
  | 0x010 => some .gridW
  | 0x014 => some .msgLen
  | 0x018 => some .seqIdx
  | 0x01C => some .seqTotal
  | 0x020 => some .payLen
  | 0x024 => some .genN
  | a =>
    match arrayIndex 0x100 40 a with
    | some t => some (.msg t)
    | none =>
    match arrayIndex 0x200 10 a with
    | some j => some (.gen j)
    | none =>
    match arrayIndex 0x240 10 a with
    | some j => some (.ecc j)
    | none =>
    match arrayIndex 0x280 10 a with
    | some i => some (.syn i)
    | none =>
    match arrayIndex 0x400 111 a with
    | some c => some (.gridCol c)
    | none => none

/-- The offset of a register (R61, the map's first column). -/
def regOffset : Reg → Nat
  | .cmd => 0x000
  | .status => 0x004
  | .result => 0x008
  | .cursor => 0x00C
  | .gridW => 0x010
  | .msgLen => 0x014
  | .seqIdx => 0x018
  | .seqTotal => 0x01C
  | .payLen => 0x020
  | .genN => 0x024
  | .msg t => 0x100 + 4 * t
  | .gen j => 0x200 + 4 * j
  | .ecc j => 0x240 + 4 * j
  | .syn i => 0x280 + 4 * i
  | .gridCol c => 0x400 + 4 * c

/-- The register an access of `size` bytes at an offset reaches, `none` where the access gets BusError (R63). -/
def accessedReg (addr size : Nat) : Option Reg :=
  if size = 4 ∧ addr % 4 = 0 then regAt addr else none

/-- The offset of a host address in the window at QRL_BASE, `none` outside its 4096 bytes (R60). -/
def windowOffset (hostAddr : Nat) : Option Nat :=
  if Config.qrlBase ≤ hostAddr ∧ hostAddr < Config.qrlBase + 4096 then some (hostAddr - Config.qrlBase) else none

/-! ### Reads (R64) -/

/-- zext_32 of the register's value; CMD reads 0. -/
def readReg (r : Reg) (s : State) : Word :=
  match r with
  | .cmd => 0#32
  | .status => statusWord s
  | .result => s.result.setWidth 32
  | .cursor => s.x.setWidth 32
  | .gridW => s.gridW.setWidth 32
  | .msgLen => s.msgLen.setWidth 32
  | .seqIdx => s.seqIdx.setWidth 32
  | .seqTotal => s.seqTotal.setWidth 32
  | .payLen => s.payLen.setWidth 32
  | .genN => s.genN.setWidth 32
  | .msg t => (entry s.msg t).setWidth 32
  | .gen j => (entry s.gen j).setWidth 32
  | .ecc j => (entry s.ecc j).setWidth 32
  | .syn i => (entry s.syn i).setWidth 32
  | .gridCol c => (gridColumn s c).setWidth 32

/-! ### Writes -/

/-- CheckedWrite (R65): the whole 32-bit value against the register's limit, then the write and ERR = 0. -/
def checkedWrite (limit : Nat) (refusal : ErrCode) (v : Word) (put : State → State) (s : State) : State :=
  if v.toNat > limit then raiseError refusal s else succeed (put s)

/-- The error code of a word that is no command (R93). -/
def decodeErrCode : DecodeError → ErrCode
  | .illegalOpcode => .illegalOpcode
  | .reservedBits => .reservedBits

/-- A write of v to CMD (R68): v is decoded, and the command it encodes runs whole. -/
def writeCmd (v : Word) (s : State) : Outcome :=
  match decode v with
  | .ok i => exec i s
  | .error e => .next (raiseError (decodeErrCode e) s)

/-- A write of v to a register of the window (R65 to R68); a write to a read-only register is dropped with READ_ONLY
(R66). -/
def writeReg (r : Reg) (v : Word) (s : State) : Outcome :=
  match r with
  | .cmd => writeCmd v s
  | .status => .next (writeStatus v s)
  | .msgLen =>
    .next (checkedWrite Config.msgCap .badLength v (fun t => { t with msgLen := v.setWidth 6 }) s)
  | .seqIdx =>
    .next (checkedWrite Config.byteMax .badValue v (fun t => { t with seqIdx := v.setWidth 8 }) s)
  | .seqTotal =>
    .next (checkedWrite Config.byteMax .badValue v (fun t => { t with seqTotal := v.setWidth 8 }) s)
  | .msg i =>
    .next (checkedWrite Config.byteMax .invalidSymbol v
      (fun t => { t with msg := t.msg.setIfInBounds i (v.setWidth 8) }) s)
  | .ecc j =>
    .next (checkedWrite Config.byteMax .invalidSymbol v
      (fun t => { t with ecc := t.ecc.setIfInBounds j (v.setWidth 8) }) s)
  | .result => .next (raiseError .readOnly s)
  | .cursor => .next (raiseError .readOnly s)
  | .gridW => .next (raiseError .readOnly s)
  | .payLen => .next (raiseError .readOnly s)
  | .genN => .next (raiseError .readOnly s)
  | .gen _ => .next (raiseError .readOnly s)
  | .syn _ => .next (raiseError .readOnly s)
  | .gridCol _ => .next (raiseError .readOnly s)

/-! ### One event -/

/-- One indivisible step of the block (R70). A refused access is a fault of the host's access and changes nothing
(R63). Reset sets every register (spec/70 R280) and leaves what the outside world does next as it was. -/
def serveEvent (e : BusEvent) (s : State) : Outcome :=
  match e with
  | .read addr size =>
    match accessedReg addr size with
    | some r => .next { s with response := .data (readReg r s) }
    | none => .fault .busError
  | .write addr size v =>
    match accessedReg addr size with
    | some r => writeReg r v { s with response := .written }
    | none => .fault .busError
  | .reset => .next { State.reset with pending := s.pending }

/-- The host write `CMD <command>` (spec/30_encoding.md R97). -/
def commandWrite (w : Word) : BusEvent := .write (regOffset .cmd) 4 w

end Sys2Proof.Machine
end

