-- ==== Sys2Proof/Machine/Step.lean ====
section
/-! DEFINITION. One step: the next pending event of the outside world. The block has no program counter and fetches
nothing (spec/10_state.md R36): what it executes next is the next access the host makes (log entry 1). -/

namespace Sys2Proof.Machine

/-- Take the next pending event and serve it. With none pending the block waits, unchanged (spec/00_scope.md R2: it
runs nothing on its own; log entry 4). -/
def step (s : State) : Host.Outcome State Fault Refusal :=
  match s.pending with
  | [] => .next s
  | e :: rest => serveEvent e { s with pending := rest }

/-- `s` with the instruction of `nbits` bits as the command the host writes to CMD next. -/
def State.withFetchWord (s : State) (nbits w : Nat) : State :=
  { s with pending := commandWrite (BitVec.ofNat 32 (w % 2 ^ nbits)) :: s.pending }

end Sys2Proof.Machine
end

