-- ==== Sys2Proof/Machine/Assembler.lean ====
section
/-! DEFINITION. The command syntax of spec/30_encoding.md R96 as a mnemonic and its operands, the assembler and the
disassembler (R99). Spacing, and the choice of decimal or hexadecimal digits, are not modelled: an operand is its
value. -/

namespace Sys2Proof.Machine

/-- One operand of a command line: a number, or the word `meta`. -/
inductive Operand where
  | num (v : Nat)
  | metaFlag
  deriving DecidableEq, Repr

/-- A line of command syntax: a command, or `.word` for a word that is none (R99). -/
inductive SourceLine where
  | command (mnemonic : String) (operands : List Operand)
  | dotWord (w : Word)
  deriving DecidableEq, Repr

/-- The line that R96 writes for a command. -/
def renderCommand : Instr → SourceLine
  | .nop => .command "NOP" []
  | .gfMul a b => .command "GF_MUL" [.num a.toNat, .num b.toNat]
  | .gfExp i => .command "GF_EXP" [.num i]
  | .gfLog a => .command "GF_LOG" [.num a.toNat]
  | .eccCount len => .command "ECC_COUNT" [.num len]
  | .rsGen n => .command "RS_GEN" [.num n]
  | .rsRem => .command "RS_REM" []
  | .rsEncode n => .command "RS_ENCODE" [.num n]
  | .rsSynd n => .command "RS_SYND" [.num n]
  | .gridInit w => .command "GRID_INIT" [.num w]
  | .colWrite v m => .command "COL_WRITE" (.num v.toNat :: if m then [.metaFlag] else [])
  | .byteWrite d m => .command "BYTE_WRITE" (.num d.toNat :: if m then [.metaFlag] else [])
  | .finderL => .command "FINDER_L" []
  | .skip k => .command "SKIP" [.num k]
  | .finderR => .command "FINDER_R" []
  | .assemble => .command "ASSEMBLE" []
  | .plan len => .command "PLAN" [.num len]
  | .selChunk k => .command "SEL_CHUNK" [.num k]

/-- The command a line stands for: the inverse of `renderCommand`, with every number checked against its field. -/
def parseCommand (mnemonic : String) (operands : List Operand) : Option Instr :=
  let command : Option Instr :=
    match operands with
    | [] =>
      if mnemonic = "NOP" then some .nop
      else if mnemonic = "RS_REM" then some .rsRem
      else if mnemonic = "FINDER_L" then some .finderL
      else if mnemonic = "FINDER_R" then some .finderR
      else if mnemonic = "ASSEMBLE" then some .assemble
      else none
    | [.num n] =>
      if mnemonic = "GF_EXP" then some (.gfExp n)
      else if mnemonic = "GF_LOG" then if n < 256 then some (.gfLog (BitVec.ofNat 8 n)) else none
      else if mnemonic = "ECC_COUNT" then some (.eccCount n)
      else if mnemonic = "RS_GEN" then some (.rsGen n)
      else if mnemonic = "RS_ENCODE" then some (.rsEncode n)
      else if mnemonic = "RS_SYND" then some (.rsSynd n)
      else if mnemonic = "GRID_INIT" then some (.gridInit n)
      else if mnemonic = "SKIP" then some (.skip n)
      else if mnemonic = "PLAN" then some (.plan n)
      else if mnemonic = "SEL_CHUNK" then some (.selChunk n)
      else if mnemonic = "COL_WRITE" then if n < 16 then some (.colWrite (BitVec.ofNat 4 n) false) else none
      else if mnemonic = "BYTE_WRITE" then if n < 256 then some (.byteWrite (BitVec.ofNat 8 n) false) else none
      else none
    | [.num n, .num k] =>
      if mnemonic = "GF_MUL" then
        if n < 256 ∧ k < 256 then some (.gfMul (BitVec.ofNat 8 n) (BitVec.ofNat 8 k)) else none
      else none
    | [.num n, .metaFlag] =>
      if mnemonic = "COL_WRITE" then if n < 16 then some (.colWrite (BitVec.ofNat 4 n) true) else none
      else if mnemonic = "BYTE_WRITE" then if n < 256 then some (.byteWrite (BitVec.ofNat 8 n) true) else none
      else none
    | _ => none
  command.filter Instr.wellFormed

/-- The word a line assembles to (R96; `.word` gives the word back). -/
def assembleLine : SourceLine → Option Word
  | .command mnemonic operands => (parseCommand mnemonic operands).map encode
  | .dotWord w => some w

/-- The line a word disassembles to (R99). -/
def disassemble (w : Word) : SourceLine :=
  match decode w with
  | .ok i => renderCommand i
  | .error _ => .dotWord w

end Sys2Proof.Machine
end

