-- ==== Sys2Proof/Machine/Session.lean ====
section
/-! DEFINITION. What the host sees over a whole session (spec/60_exceptions.md R250, R253): BusError answers one access,
changes no state, and the block takes the next access. `step` stops at BusError; a session goes on. -/

namespace Sys2Proof.Machine

/-- The answer to one event, as the host sees it on the bus. -/
inductive BusReply where
  /-- A read returned this word (spec/20_memory.md R64). -/
  | data (v : Word)
  /-- A write completed. -/
  | written
  /-- BusError (R63): a read so answered returns no data. -/
  | busError
  /-- Reset was taken. -/
  | resetTaken
  deriving DecidableEq, Repr

/-- The reply a completed event leaves. -/
def replyOf : Response → BusReply
  | .idle => .resetTaken
  | .data v => .data v
  | .written => .written

/-- One event: the reply, and the state after it. A fault leaves the state as it was. -/
def respond (e : BusEvent) (s : State) : BusReply × State :=
  match serveEvent e s with
  | .next t => (replyOf t.response, t)
  | .fault .busError => (.busError, s)
  | .refused (_) => (.busError, s)

/-- The replies to a list of events, in the order the host issues them (R71), and the state they leave. -/
def session : List BusEvent → State → List BusReply × State
  | [], s => ([], s)
  | e :: es, s =>
    let r := respond e s
    let rest := session es r.2
    (r.1 :: rest.1, rest.2)

end Sys2Proof.Machine
end

