-- ==== Sys2Proof/Machine/HostSequences.lean ====
section
/-! DEFINITION. The host-access syntax, the pseudo-instructions and the two host sequences of the spec
(spec/30_encoding.md R97, R98; spec/42 R173; spec/70 R288, R289). -/

namespace Sys2Proof.Machine

/-- `WR r, v` (R97). -/
def wr (r : Reg) (v : Word) : BusEvent := .write (regOffset r) 4 v

/-- `RD r` (R97). -/
def rd (r : Reg) : BusEvent := .read (regOffset r) 4

/-- `CMD i` (R97). An operand that does not fit its field has no word: `encode` then keeps the field's low bits
(DESIGN CHOICE, log entry 20). -/
def cmd (i : Instr) : BusEvent := commandWrite (encode i)

/-! ### The pseudo-instructions of R98 -/

/-- QUIET: one quiet-zone column. -/
def quiet : BusEvent := cmd (.skip 1)

/-- META_BYTE d. -/
def metaByte (d : Symbol) : BusEvent := cmd (.byteWrite d true)

/-- The writes of MSG[t], MSG[t+1], … of LOAD_MSG. An operand is any 32-bit value that WR takes (R97); R98 states no
range (DESIGN CHOICE, log entry 18). Operands beyond MSG[39] have no register and get no write (log entry 18). -/
def loadSymbols : Nat → List Word → List BusEvent
  | _, [] => []
  | t, d :: ds =>
    if h : t < 40 then wr (.msg ⟨t, h⟩) d :: loadSymbols (t + 1) ds else []

/-- LOAD_MSG d0, …, d(L-1): the symbols, then MSG_LEN. The operands are 32-bit values, so one above 255 expands too,
into a write that R65 refuses (DESIGN CHOICE, log entry 18). -/
def loadMsg (ds : List Word) : List BusEvent :=
  loadSymbols 0 ds ++ [wr .msgLen (BitVec.ofNat 32 ds.length)]

/-- SET_SEQ idx, total. The operands are 32-bit values, so SET_SEQ 0, 256 expands too, and R65 refuses its first write
(DESIGN CHOICE, log entry 18: R98 states no range). -/
def setSeq (idx total : Word) : List BusEvent := [wr .seqTotal total, wr .seqIdx idx]

/-- CLEAR_STICKY. -/
def clearSticky : BusEvent := wr .status 0x100#32

/-- LINE. -/
def line : BusEvent := cmd .assemble

/-! ### Encoding a payload (R173, R288) -/

/-- `RD GRIDCOL[c]` for every column of a line of width w. -/
def readLine (w : Nat) : List BusEvent :=
  (List.finRange 111).filterMap (fun c => if c.val < w then some (rd (.gridCol c)) else none)

/-- The accesses for chunk k: select it, load its symbols, assemble it, read the line. A k above 255 has no word, and
SEL_CHUNK then carries its low 8 bits (DESIGN CHOICE, log entry 20). -/
def encodeChunk (payload : List Symbol) (k : Nat) : List BusEvent :=
  let chunk := (payload.drop (chunkOffset k)).take (chunkLen payload.length k)
  cmd (.selChunk k) :: loadSymbols 0 (chunk.map (·.setWidth 32)) ++ cmd .assemble :: readLine (lineWidth chunk.length)

/-- The accesses that encode a payload, chunk after chunk. The spec says what the host issues up to 10200 symbols. Above,
where PLAN is refused, and above 65535, where PLAN has no word for P and carries its low 16 bits, the whole sequence for
ceil(P/40) chunks is issued all the same (DESIGN CHOICE, log entry 20: R173 and R288 do not say how the host goes on). -/
def encodePayload (payload : List Symbol) : List BusEvent :=
  cmd (.plan payload.length) ::
    (List.range (chunkCount payload.length)).flatMap (encodeChunk payload)

/-! ### The manual sequence (R289) -/

/-- Commands one after the other, stopping at a fault or a refusal. A command that raises an error is followed by the
next one (DESIGN CHOICE, log entry 20: R289 is about sequences without an error). -/
def execAll : List Instr → State → Outcome
  | [], s => .next s
  | i :: is, s =>
    match exec i s with
    | .next t => execAll is t
    | .fault r => .fault r
    | .refused r => .refused r

/-- The commands of R289 up to the payload. -/
def manualOpening (s : State) : List Instr :=
  [.rsEncode (eccCount (chunkLength s)), .gridInit (lineWidth (chunkLength s)), .finderL, .skip 1,
    .byteWrite (sequenceId s) true, .byteWrite s.seqTotal true]
    ++ (message s).map (fun d => .byteWrite d false)

/-- The commands of R289 after the payload, with the parity bytes the host reads from ECC. -/
def manualClosing (s : State) : List Instr :=
  (parity (eccCount (chunkLength s)) s).map (fun d => .byteWrite d false) ++ [.skip 1, .finderR]

/-- The manual sequence: the opening, then the closing with the ECC bytes it left. -/
def manualLine (s : State) : Outcome :=
  match execAll (manualOpening s) s with
  | .next t => execAll (manualClosing t) t
  | .fault r => .fault r
  | .refused r => .refused r

end Sys2Proof.Machine
end

