-- ==== Sys2Proof/Safety.lean ====
section
/-! DEFINITION. What counts as a safe run, and the terms the statements use: the invariants of spec/10_state.md R41 and
R25, the checks of spec/60_exceptions.md R252 in their order, the register map as ranges, and reference definitions
taken from the spec's other accounts of the same thing (polynomial products, the opcode table's rows, the generator
table), which share no text with the machine's. -/

namespace Sys2Proof.Machine

/-! ### Invariants -/

/-- The invariants 1 to 4 of R41 (the fifth is the width of the entries; the 8-bit registers bound themselves). -/
abbrev StateInv (s : State) : Prop :=
  s.x.toNat ≤ s.gridW.toNat ∧ s.gridW.toNat ≤ 111 ∧
  (∀ c < 111, s.x.toNat ≤ c → gridColumn s c = 0#8) ∧
  s.msgLen.toNat ≤ 40 ∧ s.genN.toNat ≤ 10 ∧ s.payLen.toNat ≤ 10200 ∧
  (∀ j < 10, s.genN.toNat ≤ j → entry s.gen j = 0#8)

/-- GEN holds the generator polynomial of degree GEN_N, and 0 beyond it (R25, R26). The bound on MSG_LEN (R24) keeps
the parity count that ASSEMBLE takes from it within 10. -/
abbrev GeneratorInv (s : State) : Prop :=
  s.msgLen.toNat ≤ 40 ∧ s.genN.toNat ≤ 10 ∧ s.gen = pad 10 (generator s.genN.toNat)

/-- A run is safe at a state when its next step is no BusError. -/
abbrev StepsWithoutBusError (s : State) : Prop := step s ≠ .fault .busError

/-! ### The register map as ranges (spec/20_memory.md R61) -/

/-- The offsets that the map lists. -/
def mappedOffset (a : Nat) : Bool :=
  a % 4 == 0 && (a ≤ 0x024 || (0x100 ≤ a && a ≤ 0x19C) || (0x200 ≤ a && a ≤ 0x224) ||
    (0x240 ≤ a && a ≤ 0x264) || (0x280 ≤ a && a ≤ 0x2A4) || (0x400 ≤ a && a ≤ 0x5B8))

/-- The limit and the error code of a register with checked writes (R65). -/
def checkedLimit : Reg → Option (Nat × ErrCode)
  | .msg _ => some (255, .invalidSymbol)
  | .ecc _ => some (255, .invalidSymbol)
  | .msgLen => some (40, .badLength)
  | .seqIdx => some (255, .badValue)
  | .seqTotal => some (255, .badValue)
  | _ => none

/-- The read-only registers (R66). -/
def isReadOnly : Reg → Bool
  | .result | .cursor | .gridW | .payLen | .genN | .gen _ | .syn _ | .gridCol _ => true
  | _ => false

/-! ### Commands -/

/-- The cursor commands (R77). -/
def isCursorCommand : Instr → Bool
  | .colWrite _ _ | .byteWrite _ _ | .finderL | .skip _ | .finderR => true
  | _ => false

/-- The commands that produce a scalar in RESULT (spec/10_state.md R35). -/
def producesResult : Instr → Bool
  | .gfMul _ _ | .gfExp _ | .gfLog _ | .eccCount _ | .rsSynd _ | .plan _ | .selChunk _ | .assemble => true
  | _ => false

/-- The commands that build a generator (R25). -/
def buildsGenerator : Instr → Bool
  | .rsGen _ | .rsEncode _ | .assemble => true
  | _ => false

/-- The commands that compute parity (R27). -/
def computesParity : Instr → Bool
  | .rsRem | .rsEncode _ | .assemble => true
  | _ => false

/-- The commands that start a grid (R29). -/
def startsGrid : Instr → Bool
  | .gridInit _ | .assemble => true
  | _ => false

/-- The checks of a command after decode, in the order of R252: whether the check fails, and its code. The conditions
are those of the command rules, on numbers. -/
def commandChecks (i : Instr) (s : State) : List (Bool × ErrCode) :=
  let badCount (n : Nat) : Bool × ErrCode := (n == 0 || n > 10, .badEccCount)
  let empty : Bool × ErrCode := (s.msgLen.toNat == 0, .emptyMessage)
  let overflow (k : Nat) : Bool × ErrCode := (s.x.toNat + k > s.gridW.toNat, .cursorOverflow)
  let sequence : Bool × ErrCode :=
    (s.seqTotal.toNat == 0 || s.seqIdx.toNat ≥ s.seqTotal.toNat, .badSequence)
  match i with
  | .nop | .gfMul _ _ | .gfExp _ | .eccCount _ => []
  | .gfLog a => [(a.toNat == 0, .logOfZero)]
  | .rsGen n => [badCount n]
  | .rsRem => [(s.genN.toNat == 0, .noGenerator), empty]
  | .rsEncode n | .rsSynd n => [badCount n, empty]
  | .gridInit w => [(w == 0 || w > 111, .badWidth)]
  | .colWrite _ _ => [overflow 1]
  | .byteWrite _ _ => [overflow 2]
  | .finderL => [overflow 3]
  | .skip k => [overflow k]
  | .finderR => [sequence, overflow 2]
  | .assemble => [empty, sequence]
  | .plan len => [(len > 10200, .tooManyChunks)]
  | .selChunk k => [(40 * k ≥ s.payLen.toNat, .badSequence)]

/-- The code of the first check that fails, `ok` when none does (spec/30_encoding.md R95, spec/60 R254). -/
def firstError : List (Bool × ErrCode) → ErrCode
  | [] => .ok
  | (fails, c) :: rest => if fails then c else firstError rest

/-! ### Reference definitions -/

/-- One row of spec/opcode_table.json. -/
structure OpcodeRow where
  mask : Word
  value : Word
  deriving DecidableEq, Repr

/-- The table's rows, with its "match" as `value`. -/
def opcodeRows : List OpcodeRow :=
  [ ⟨0xFFFFFFFF#32, 0x00000000#32⟩,
    ⟨0xFF0000FF#32, 0x00000001#32⟩,
    ⟨0xFFFE00FF#32, 0x00000002#32⟩,
    ⟨0xFFFF00FF#32, 0x00000003#32⟩,
    ⟨0xFFFF00FF#32, 0x00000010#32⟩,
    ⟨0xFFFF00FF#32, 0x00000011#32⟩,
    ⟨0xFFFFFFFF#32, 0x00000012#32⟩,
    ⟨0xFFFF00FF#32, 0x00000013#32⟩,
    ⟨0xFFFF00FF#32, 0x00000014#32⟩,
    ⟨0xFFFF00FF#32, 0x00000020#32⟩,
    ⟨0xFFFEF0FF#32, 0x00000021#32⟩,
    ⟨0xFFFE00FF#32, 0x00000022#32⟩,
    ⟨0xFFFFFFFF#32, 0x00000023#32⟩,
    ⟨0xFFFF00FF#32, 0x00000024#32⟩,
    ⟨0xFFFFFFFF#32, 0x00000025#32⟩,
    ⟨0xFFFFFFFF#32, 0x00000026#32⟩,
    ⟨0xFF0000FF#32, 0x00000030#32⟩,
    ⟨0xFFFF00FF#32, 0x00000031#32⟩ ]

/-- The row of a command. -/
def opcodeRow : Instr → OpcodeRow
  | .nop => ⟨0xFFFFFFFF#32, 0x00000000#32⟩
  | .gfMul _ _ => ⟨0xFF0000FF#32, 0x00000001#32⟩
  | .gfExp _ => ⟨0xFFFE00FF#32, 0x00000002#32⟩
  | .gfLog _ => ⟨0xFFFF00FF#32, 0x00000003#32⟩
  | .eccCount _ => ⟨0xFFFF00FF#32, 0x00000010#32⟩
  | .rsGen _ => ⟨0xFFFF00FF#32, 0x00000011#32⟩
  | .rsRem => ⟨0xFFFFFFFF#32, 0x00000012#32⟩
  | .rsEncode _ => ⟨0xFFFF00FF#32, 0x00000013#32⟩
  | .rsSynd _ => ⟨0xFFFF00FF#32, 0x00000014#32⟩
  | .gridInit _ => ⟨0xFFFF00FF#32, 0x00000020#32⟩
  | .colWrite _ _ => ⟨0xFFFEF0FF#32, 0x00000021#32⟩
  | .byteWrite _ _ => ⟨0xFFFE00FF#32, 0x00000022#32⟩
  | .finderL => ⟨0xFFFFFFFF#32, 0x00000023#32⟩
  | .skip _ => ⟨0xFFFF00FF#32, 0x00000024#32⟩
  | .finderR => ⟨0xFFFFFFFF#32, 0x00000025#32⟩
  | .assemble => ⟨0xFFFFFFFF#32, 0x00000026#32⟩
  | .plan _ => ⟨0xFF0000FF#32, 0x00000030#32⟩
  | .selChunk _ => ⟨0xFFFF00FF#32, 0x00000031#32⟩

/-- The number of a command's word (spec/30_encoding.md R91, R96): the opcode at bit 0, A, I, P, V and D at bit 8, B and
M at bit 16. -/
def wordNumber : Instr → Nat
  | .nop => 0x00
  | .gfMul a b => 0x01 + 2 ^ 8 * a.toNat + 2 ^ 16 * b.toNat
  | .gfExp i => 0x02 + 2 ^ 8 * i
  | .gfLog a => 0x03 + 2 ^ 8 * a.toNat
  | .eccCount len => 0x10 + 2 ^ 8 * len
  | .rsGen n => 0x11 + 2 ^ 8 * n
  | .rsRem => 0x12
  | .rsEncode n => 0x13 + 2 ^ 8 * n
  | .rsSynd n => 0x14 + 2 ^ 8 * n
  | .gridInit w => 0x20 + 2 ^ 8 * w
  | .colWrite v m => 0x21 + 2 ^ 8 * v.toNat + 2 ^ 16 * m.toNat
  | .byteWrite d m => 0x22 + 2 ^ 8 * d.toNat + 2 ^ 16 * m.toNat
  | .finderL => 0x23
  | .skip k => 0x24 + 2 ^ 8 * k
  | .finderR => 0x25
  | .assemble => 0x26
  | .plan len => 0x30 + 2 ^ 8 * len
  | .selChunk k => 0x31 + 2 ^ 8 * k

/-- Multiplication by x in GF(2^8), the doubling step of spec/40_gf_arithmetic.md R120, on numbers. -/
def timesX (a : Nat) : Nat := if a < 128 then 2 * a else Nat.xor (2 * a) 0x11d

/-- α^i by i doublings of 1 (R120). -/
def alphaPower : Nat → Nat
  | 0 => 1
  | i + 1 => timesX (alphaPower i)

/-- The sum of the first k shifted copies of a that b selects: Horner's rule from bit k-1 of b down to bit 0. -/
def productFrom (a b : Nat) : Nat → Nat → Nat
  | 0, acc => acc
  | k + 1, acc => productFrom a b k (Nat.xor (timesX acc) (if b.testBit k then a else 0))

/-- The product of two symbols as polynomials over GF(2), reduced modulo 0x11d (R124), without any table. -/
def fieldProduct (a b : Symbol) : Symbol := BitVec.ofNat 8 (productFrom a.toNat b.toNat 8 0)

/-- The value at α^i of the polynomial with coefficients c, highest degree first (spec/41_reed_solomon.md R145): the XOR
of `c[t] ⊗ α^(i·(N-1-t))`, term by term, without Horner's rule and without any table. -/
def termSum : List Symbol → Nat → Symbol
  | [], _ => 0#8
  | a :: c, i => fieldProduct a (BitVec.ofNat 8 (alphaPower (i * c.length))) ^^^ termSum c i

/-- a^k by repeated multiplication. -/
def symbolPower (a : Symbol) : Nat → Symbol
  | 0 => 1#8
  | k + 1 => gfMul a (symbolPower a k)

/-- The product of two polynomials over GF(2^8), highest degree first (spec/00_scope.md R9). -/
def polyMul : List Symbol → List Symbol → List Symbol
  | [], q => List.replicate (q.length - 1) 0#8
  | a :: p, q =>
    List.zipWith (· ^^^ ·) (q.map (gfMul a) ++ List.replicate p.length 0#8) (0#8 :: polyMul p q)

/-- The product of (x + α^i) for i < n (spec/41_reed_solomon.md R142). -/
def rootProduct : Nat → List Symbol
  | 0 => [1#8]
  | n + 1 => polyMul (rootProduct n) [1#8, BitVec.ofNat 8 (alphaPower n)]

/-- The table of spec/41_reed_solomon.md section 3: Gen(1) to Gen(10). -/
def generatorTable : List (List Symbol) :=
  [ [0x01#8],
    [0x03#8, 0x02#8],
    [0x07#8, 0x0E#8, 0x08#8],
    [0x0F#8, 0x36#8, 0x78#8, 0x40#8],
    [0x1F#8, 0xC6#8, 0x3F#8, 0x93#8, 0x74#8],
    [0x3F#8, 0x01#8, 0xDA#8, 0x20#8, 0xE3#8, 0x26#8],
    [0x7F#8, 0x7A#8, 0x9A#8, 0xA4#8, 0x0B#8, 0x44#8, 0x75#8],
    [0xFF#8, 0x0B#8, 0x51#8, 0x36#8, 0xEF#8, 0xAD#8, 0xC8#8, 0x18#8],
    [0xE2#8, 0xCF#8, 0x9E#8, 0xF5#8, 0xEB#8, 0xA4#8, 0xE8#8, 0xC5#8, 0x25#8],
    [0xD8#8, 0xC2#8, 0x9F#8, 0x6F#8, 0xC7#8, 0x5E#8, 0x5F#8, 0x71#8, 0x9D#8, 0xC1#8] ]

/-- base(x, v) of spec/43_column_writer.md R191. -/
def columnBase (x : Nat) (v : BitVec 4) : Column :=
  (if x % 2 = 0 then 0x01#8 else 0x80#8) ||| (v.setWidth 8 <<< 1) ||| 0x20#8

end Sys2Proof.Machine
end

