-- ==== Sys2Proof/Certificates/Slice0/Obligations.lean ====
section
/-! DEFINITION. The statements for the provers. Each docstring names the rule of the spec it formalises, or says that
it rests on the model's own choice and names the log entry. -/

open Sys2Proof Sys2Proof.Machine

/-! ### Encoding -/

/-- Every well-formed command is read back from its word (spec/30_encoding.md R91, R93, R96). -/
def Obligations.DecodeReadsBackEveryEncodedCommand : Prop :=
  ∀ i : Instr, i.wellFormed = true → decode (encode i) = .ok i

/-- Every word that decodes is the one encoding of a well-formed command (R99). -/
def Obligations.EveryDecodedWordIsItsEncoding : Prop :=
  ∀ (w : Word) (i : Instr), decode w = .ok i → i.wellFormed = true ∧ encode i = w

/-- The word of a well-formed command is its opcode plus its operands at the bit positions of R91, each taken straight
from its bits (R92, R96); with the round trip this fixes how decode reads every field. -/
def Obligations.EncodedWordHasItsFieldsInPlace : Prop :=
  ∀ i : Instr, i.wellFormed = true → (encode i).toNat = wordNumber i

/-- R93: a word reaches "perform" exactly when it matches a row of the opcode table, then it is that row's command; at
most one row matches; a word whose opcode byte is a row's and that matches no row is RESERVED_BITS, and one whose opcode
byte is no row's is ILLEGAL_OPCODE; a CMD write then performs the command or raises that error. -/
def Obligations.DecodeFollowsTheOpcodeTable : Prop :=
  ∀ (w : Word) (s : State),
    ((∃ i, decode w = .ok i) ↔ ∃ row ∈ opcodeRows, w &&& row.mask = row.value) ∧
    (∀ i, decode w = .ok i → opcodeRow i ∈ opcodeRows ∧ w &&& (opcodeRow i).mask = (opcodeRow i).value) ∧
    (∀ row ∈ opcodeRows, ∀ row' ∈ opcodeRows,
      w &&& row.mask = row.value → w &&& row'.mask = row'.value → row = row') ∧
    (decode w = .error .reservedBits ↔
      (∃ row ∈ opcodeRows, w &&& 0xFF#32 = row.value) ∧ ¬ ∃ row ∈ opcodeRows, w &&& row.mask = row.value) ∧
    (decode w = .error .illegalOpcode ↔ ¬ ∃ row ∈ opcodeRows, w &&& 0xFF#32 = row.value) ∧
    (∀ i, decode w = .ok i → writeReg .cmd w s = exec i s) ∧
    (decode w = .error .reservedBits → writeReg .cmd w s = .next { s with err := .reservedBits, sticky := true }) ∧
    (decode w = .error .illegalOpcode → writeReg .cmd w s = .next { s with err := .illegalOpcode, sticky := true })

/-- R94: 238 opcode bytes are illegal and only raise ILLEGAL_OPCODE; a reserved bit under a defined opcode only raises
RESERVED_BITS; the only word that is NOP is 0. -/
def Obligations.IllegalAndReservedWordsOnlyRaiseTheirError : Prop :=
  ((List.range 256).countP (fun b => decide (decode (BitVec.ofNat 32 b) = .error .illegalOpcode)) = 238) ∧
  (∀ (w : Word) (s : State),
    (((4 ≤ (opField w).toNat ∧ (opField w).toNat ≤ 0x0F) ∨ (0x15 ≤ (opField w).toNat ∧ (opField w).toNat ≤ 0x1F) ∨
        (0x27 ≤ (opField w).toNat ∧ (opField w).toNat ≤ 0x2F) ∨ 0x32 ≤ (opField w).toNat) ↔
      decode w = .error .illegalOpcode) ∧
    (decode w = .error .illegalOpcode → writeReg .cmd w s = .next { s with err := .illegalOpcode, sticky := true }) ∧
    (∀ (i : Instr) (v : Word), decode w = .ok i → w &&& v = 0#32 → v &&& (opcodeRow i).mask ≠ 0#32 →
      opField (w ||| v) = opField w →
      writeReg .cmd (w ||| v) s = .next { s with err := .reservedBits, sticky := true }) ∧
    (decode w = .ok .nop ↔ w = 0#32))

/-- A few words of spec/95_test_vectors.md and of the command rules decode to the command they stand for. -/
def Obligations.WrittenOutWordsDecode : Prop :=
  decode 0x00CA5301#32 = .ok (.gfMul 0x53#8 0xCA#8) ∧ decode 0x0001FF02#32 = .ok (.gfExp 511) ∧
  decode 0x00002810#32 = .ok (.eccCount 40) ∧ decode 0x00000012#32 = .ok .rsRem ∧
  decode 0x00010F21#32 = .ok (.colWrite 0xF#4 true) ∧ decode 0x00004122#32 = .ok (.byteWrite 0x41#8 false) ∧
  decode 0x00005530#32 = .ok (.plan 85) ∧ decode 0x00000231#32 = .ok (.selChunk 2) ∧
  decode 0x01000001#32 = .error .reservedBits ∧ decode 0x00001021#32 = .error .reservedBits ∧
  decode 0x000000FF#32 = .error .illegalOpcode

/-- A step serves the next event, whatever it is: a write of v to a register's offset is the write of that register
(spec/20_memory.md R65 to R68), a read answers the register's value (R64), an access that R63 excludes is the fault
busError, and a reset gives State.reset. A write of w to CMD runs the command w decodes to; a word that is no command
raises its error instead (R68). That the event is taken from the list `pending`, that `response` holds the answer, that
BusError ends the step, and that a reset keeps what is still pending is the model's own choice (log entries 1, 3, 2
and 7). -/
def Obligations.StepRunsTheDecodedCommand : Prop :=
  (∀ (s : State) (e : BusEvent) (rest : List BusEvent), s.pending = e :: rest →
    step s = serveEvent e { s with pending := rest } ∧
    (∀ (r : Reg) (v : Word), e = .write (regOffset r) 4 v →
      step s = writeReg r v { s with pending := rest, response := .written }) ∧
    (∀ r : Reg, e = .read (regOffset r) 4 →
      step s = .next { s with pending := rest, response := .data (readReg r s) }) ∧
    (∀ (addr size : Nat) (v : Word), ¬ (size = 4 ∧ addr % 4 = 0 ∧ mappedOffset addr = true) →
      e = .read addr size ∨ e = .write addr size v → step s = .fault .busError) ∧
    (e = .reset → step s = .next { State.reset with pending := rest })) ∧
  ∀ (s : State) (w : Word) (rest : List BusEvent), s.pending = commandWrite w :: rest →
    (∀ i, decode w = .ok i → step s = exec i { s with pending := rest, response := .written }) ∧
    (∀ e, decode w = .error e →
      step s = .next (raiseError (decodeErrCode e) { s with pending := rest, response := .written }))

/-- The model's own choice (log entry 4): with no event pending the block waits, unchanged. -/
def Obligations.StepWithNothingPendingChangesNothing : Prop :=
  ∀ s : State, s.pending = [] → step s = .next s

/-! ### Field arithmetic -/

/-- R120 and R121: EXP starts at 1 and doubles with reduction by 0x11d; EXP[0..254] are pairwise distinct and are
exactly 1..255; from 255 to 511 it repeats with period 255, so EXP[510] = 1 and EXP[511] = 2; mul reads no index above 508. -/
def Obligations.ExpTableIsTheDoublingSequence : Prop :=
  expTable 0 = 1#8 ∧ expTable 1 = 2#8 ∧
  (∀ i < 254, (expTable (i + 1)).toNat = timesX (expTable i).toNat) ∧
  (∀ i < 255, ∀ j < 255, expTable i = expTable j → i = j) ∧
  (∀ a : Symbol, a ≠ 0#8 → ∃ i < 255, expTable i = a) ∧ (∀ i < 255, expTable i ≠ 0#8) ∧
  (∀ i, 255 ≤ i → i < 512 → expTable i = expTable (i % 255)) ∧
  expTable 510 = 0x01#8 ∧ expTable 511 = 0x02#8 ∧
  ∀ a b : Symbol, a ≠ 0#8 → b ≠ 0#8 → (logTable a).toNat + (logTable b).toNat ≤ 508

/-- R124: mul is the product of polynomials over GF(2) modulo 0x11d; it is commutative and associative, distributes
over XOR, has 1 and 0 as it should, and inverses EXP[(255 - LOG[a]) mod 255]; 2 has order 255. -/
def Obligations.GfMulIsTheFieldProduct : Prop :=
  (∀ a b : Symbol, gfMul a b = fieldProduct a b) ∧
  (∀ a b : Symbol, gfMul a b = gfMul b a) ∧
  (∀ a b c : Symbol, gfMul (gfMul a b) c = gfMul a (gfMul b c)) ∧
  (∀ a b c : Symbol, gfMul a (b ^^^ c) = gfMul a b ^^^ gfMul a c) ∧
  (∀ b : Symbol, gfMul 1#8 b = b ∧ gfMul 0#8 b = 0#8) ∧
  (∀ a : Symbol, a ≠ 0#8 → gfMul a (expTable ((255 - (logTable a).toNat) % 255)) = 1#8) ∧
  symbolPower 2#8 255 = 1#8 ∧ ∀ k, 0 < k → k < 255 → symbolPower 2#8 k ≠ 1#8

/-- GF_MUL completes, RESULT is the field product, and nothing else but STATUS.ERR changes (R125). -/
def Obligations.GfMulPutsTheProductInResult : Prop :=
  ∀ (a b : Symbol) (s : State),
    exec (.gfMul a b) s = .next { s with result := (fieldProduct a b).setWidth 16, err := .ok }

/-- GF_EXP completes for every 9-bit index and RESULT is α^i (R126). -/
def Obligations.GfExpPutsThePowerOfAlphaInResult : Prop :=
  ∀ (i : Nat) (s : State), i < 512 →
    exec (.gfExp i) s = .next { s with result := BitVec.ofNat 16 (alphaPower i), err := .ok }

/-- GF_LOG a completes for a ≠ 0 with the k in 0..254 for which α^k = a; GF_LOG 0 raises LOG_OF_ZERO and leaves RESULT
(R127). -/
def Obligations.GfLogFindsTheExponent : Prop :=
  ∀ (a : Symbol) (s : State),
    (a ≠ 0#8 → ∃ k, k < 255 ∧ alphaPower k = a.toNat ∧
      exec (.gfLog a) s = .next { s with result := BitVec.ofNat 16 k, err := .ok }) ∧
    exec (.gfLog 0#8) s = .next { s with err := .logOfZero, sticky := true }

/-! ### Reed-Solomon -/

/-- R140, and ECC_COUNT completes with it for every 8-bit L (R146). -/
def Obligations.EccCountIsAQuarterAtLeastFour : Prop :=
  (∀ len : Nat, 4 ≤ eccCount len ∧ len ≤ 4 * eccCount len ∧ (4 < eccCount len → 4 * (eccCount len - 1) < len)) ∧
  (∀ len ≤ 16, eccCount len = 4) ∧ (∀ len, 17 ≤ len → len ≤ 20 → eccCount len = 5) ∧
  (∀ len, 21 ≤ len → len ≤ 24 → eccCount len = 6) ∧ (∀ len, 25 ≤ len → len ≤ 28 → eccCount len = 7) ∧
  (∀ len, 29 ≤ len → len ≤ 32 → eccCount len = 8) ∧ (∀ len, 33 ≤ len → len ≤ 36 → eccCount len = 9) ∧
  (∀ len, 37 ≤ len → len ≤ 40 → eccCount len = 10) ∧ (∀ len, 1 ≤ len → len ≤ 40 → eccCount len ≤ 10) ∧
  ∀ (len : Nat) (s : State), len < 256 →
    ∃ t, exec (.eccCount len) s = .next t ∧ t.result.toNat = max 4 ((len + 3) / 4) ∧
      t = { s with result := t.result, err := .ok }

/-- R142: Gen(n) with its leading 1 is the product of (x + α^i) for i < n, its roots are α^0 … α^(n-1), and the values
for n = 1..10 are those of section 3. -/
def Obligations.GeneratorIsTheProductOverItsRoots : Prop :=
  (∀ n : Nat, 1#8 :: generator n = rootProduct n ∧ ∀ i < n, syndrome (1#8 :: generator n) i = 0#8) ∧
  (List.range 10).map (fun k => generator (k + 1)) = generatorTable

/-- R144: M(x)·x^n is a multiple of G_n(x) plus the remainder, whose degree is below n, and no other n symbols are. -/
def Obligations.RemainderIsTheMessageModuloTheGenerator : Prop :=
  ∀ (m : List Symbol) (n : Nat), 1 ≤ n →
    (remainder m (generator n)).length = n ∧
    (∃ q : List Symbol, q.length = m.length ∧
      polyMul q (1#8 :: generator n) = m ++ remainder m (generator n)) ∧
    ∀ q r : List Symbol, q.length = m.length → r.length = n → polyMul q (1#8 :: generator n) = m ++ r →
      r = remainder m (generator n)

/-- R150: every codeword has zero syndromes. -/
def Obligations.EveryCodewordHasZeroSyndromes : Prop :=
  ∀ (m : List Symbol) (n i : Nat), 1 ≤ m.length → m.length ≤ 40 → 1 ≤ n → n ≤ 10 → i < n →
    syndrome (m ++ remainder m (generator n)) i = 0#8

/-- RS_GEN n completes for n in 1..10 with the row n of the generator table of section 3, and 0 in the entries beyond
(R147). -/
def Obligations.RsGenInstallsTheGenerator : Prop :=
  ∀ (n : Nat) (s : State), 1 ≤ n → n ≤ 10 →
    ∃ t, exec (.rsGen n) s = .next t ∧ t.genN.toNat = n ∧
      (∀ j < 10, entry t.gen j = (generatorTable.getD (n - 1) []).getD j 0#8) ∧
      t = { s with gen := t.gen, genN := t.genN, err := .ok }

/-- RS_REM completes when a generator and a message are there: over a generator that GEN holds whole, MSG ++ ECC is a
codeword, and ECC is 0 beyond it (R148). -/
def Obligations.RsRemMakesACodeword : Prop :=
  ∀ s : State, s.genN ≠ 0#4 → s.msgLen ≠ 0#6 → GeneratorInv s →
    ∃ t, exec .rsRem s = .next t ∧
      (∀ i < s.genN.toNat, syndrome (message s ++ parity s.genN.toNat t) i = 0#8) ∧
      (∀ j < 10, s.genN.toNat ≤ j → entry t.ecc j = 0#8) ∧ t = { s with ecc := t.ecc, err := .ok }

/-- RS_ENCODE n completes for n in 1..10 and a message: GEN is Gen(n), MSG ++ ECC[0..n-1] is a codeword, and the
entries beyond n are 0 (R149). -/
def Obligations.RsEncodeMakesACodeword : Prop :=
  ∀ (n : Nat) (s : State), 1 ≤ n → n ≤ 10 → s.msgLen ≠ 0#6 →
    ∃ t, exec (.rsEncode n) s = .next t ∧ t.genN.toNat = n ∧
      (∀ j < 10, entry t.gen j = (generatorTable.getD (n - 1) []).getD j 0#8) ∧
      (∀ i < n, syndrome (message s ++ parity n t) i = 0#8) ∧ (∀ j < 10, n ≤ j → entry t.ecc j = 0#8) ∧
      t = { s with gen := t.gen, genN := t.genN, ecc := t.ecc, err := .ok }

/-- RS_SYND n completes for n in 1..10 and a message: SYN[i] = c(α^i) for the codeword MSG ++ ECC[0..n-1], that is the
machine's `syndrome` and the sum of c[t] ⊗ α^(i·(N-1-t)) over the codeword's N symbols, 0 beyond, and RESULT is 1
exactly when all n are 0, else 0 (R151, R145). -/
def Obligations.RsSyndEvaluatesTheCodeword : Prop :=
  ∀ (n : Nat) (s : State), 1 ≤ n → n ≤ 10 → s.msgLen ≠ 0#6 →
    ∃ t, exec (.rsSynd n) s = .next t ∧
      (∀ i < n, entry t.syn i = syndrome (message s ++ parity n s) i ∧
        entry t.syn i = termSum (message s ++ parity n s) i) ∧
      (∀ i < 10, n ≤ i → entry t.syn i = 0#8) ∧
      ((∀ i < n, entry t.syn i = 0#8) → t.result = 1#16) ∧ ((∃ i < n, entry t.syn i ≠ 0#8) → t.result = 0#16) ∧
      t = { s with syn := t.syn, result := t.result, err := .ok }

/-- RS_SYND n right after RS_ENCODE n finds the codeword valid (R151, first corner case). -/
def Obligations.RsSyndAcceptsWhatRsEncodeMade : Prop :=
  ∀ (n : Nat) (s : State), 1 ≤ n → n ≤ 10 → s.msgLen ≠ 0#6 →
    ∃ t, exec (.rsEncode n) s = .next t ∧
      exec (.rsSynd n) t = .next { t with syn := Vector.replicate 10 0#8, result := 1#16, err := .ok }

/-- R145: Synd(c, i) is c(α^i), the sum of c[t] ⊗ α^(i·(N-1-t)). So Synd(c, 0) is the XOR of all symbols, and changing
the symbol of degree d by e changes Synd(c, i) by e ⊗ α^(i·d) (R151, corner cases). -/
def Obligations.SyndromeIsTheValueAtThePowerOfAlpha : Prop :=
  (∀ (c : List Symbol) (i : Nat), syndrome c i = termSum c i) ∧
  (∀ c : List Symbol, syndrome c 0 = c.foldr (· ^^^ ·) 0#8) ∧
  ∀ (before after : List Symbol) (a e : Symbol) (i : Nat),
    syndrome (before ++ (a ^^^ e) :: after) i =
      syndrome (before ++ a :: after) i ^^^ fieldProduct e (BitVec.ofNat 8 (alphaPower (i * after.length)))

/-! ### Chunk planner -/

/-- R170: the chunks in index order are exactly the payload, each but the last has 40 symbols and the last 1 to 40; no
chunks for no payload; and the rule's examples. -/
def Obligations.ChunksAreThePayload : Prop :=
  (∀ payload : List Symbol,
    (List.range (chunkCount payload.length)).flatMap
      (fun k => (payload.drop (chunkOffset k)).take (chunkLen payload.length k)) = payload) ∧
  (∀ len : Nat, chunkCount len = (len + 39) / 40) ∧
  (∀ len k : Nat, k < chunkCount len →
    chunkOffset k = 40 * k ∧ chunkLen len k = min 40 (len - 40 * k) ∧ 1 ≤ chunkLen len k ∧ chunkLen len k ≤ 40 ∧ chunkOffset k + chunkLen len k ≤ len ∧
    (k + 1 < chunkCount len → chunkLen len k = 40) ∧
    (k + 1 = chunkCount len → chunkLen len k = len - 40 * (chunkCount len - 1))) ∧
  chunkCount 0 = 0 ∧ (List.range (chunkCount 85)).map (chunkLen 85) = [40, 40, 5] ∧
  (List.range (chunkCount 40)).map (chunkLen 40) = [40] ∧
  (List.range (chunkCount 41)).map (chunkLen 41) = [40, 1] ∧ chunkCount 10200 = 255

/-- PLAN P completes for P ≤ 10200, the empty payload included, and above it raises TOO_MANY_CHUNKS (R171, R174). -/
def Obligations.PlanCountsTheChunks : Prop :=
  ∀ (len : Nat) (s : State),
    (len ≤ 10200 → ∃ t, exec (.plan len) s = .next t ∧ t.payLen.toNat = len ∧
      t.seqTotal.toNat = (len + 39) / 40 ∧ t.seqIdx = 0#8 ∧ t.result.toNat = (len + 39) / 40 ∧
      t = { s with payLen := t.payLen, seqTotal := t.seqTotal, seqIdx := t.seqIdx, result := t.result, err := .ok }) ∧
    (10200 < len → exec (.plan len) s = .next { s with err := .tooManyChunks, sticky := true })

/-- SEL_CHUNK k completes for 40·k < PAY_LEN, and otherwise raises BAD_SEQUENCE (R172). -/
def Obligations.SelChunkSelectsOneChunk : Prop :=
  ∀ (k : Nat) (s : State), k < 256 →
    (40 * k < s.payLen.toNat → ∃ t, exec (.selChunk k) s = .next t ∧ t.seqIdx.toNat = k ∧
      t.msgLen.toNat = min 40 (s.payLen.toNat - 40 * k) ∧ 1 ≤ t.msgLen.toNat ∧ t.result.toNat = 40 * k ∧
      t = { s with seqIdx := t.seqIdx, msgLen := t.msgLen, result := t.result, err := .ok }) ∧
    (s.payLen.toNat ≤ 40 * k → exec (.selChunk k) s = .next { s with err := .badSequence, sticky := true })

/-! ### Column writer -/

/-- R191: the closed form, its consequences, and every value of its table. -/
def Obligations.ColumnHasTheClosedForm : Prop :=
  (∀ (x : Nat) (v : BitVec 4),
    columnOf x v true = columnBase x v ∧
    columnOf x v false = columnBase x v ^^^ (if x % 2 = 0 then 0x54#8 else 0x2A#8) ∧
    (columnOf x v false).getLsbD 5 = decide (x % 2 = 0) ∧ (columnOf x v false).getLsbD 6 = decide (x % 2 = 0) ∧
    (columnOf x v true).getLsbD 5 = true ∧ (columnOf x v true).getLsbD 6 = false ∧
    ∀ m : Bool, (columnOf x v m).getLsbD 0 = decide (x % 2 = 0) ∧ (columnOf x v m).getLsbD 7 = decide (x % 2 = 1)) ∧
  (List.range 16).map (fun v => (columnOf 0 (BitVec.ofNat 4 v) false).toNat) =
    [0x75, 0x77, 0x71, 0x73, 0x7D, 0x7F, 0x79, 0x7B, 0x65, 0x67, 0x61, 0x63, 0x6D, 0x6F, 0x69, 0x6B] ∧
  (List.range 16).map (fun v => (columnOf 1 (BitVec.ofNat 4 v) false).toNat) =
    [0x8A, 0x88, 0x8E, 0x8C, 0x82, 0x80, 0x86, 0x84, 0x9A, 0x98, 0x9E, 0x9C, 0x92, 0x90, 0x96, 0x94] ∧
  (List.range 16).map (fun v => (columnOf 0 (BitVec.ofNat 4 v) true).toNat) =
    [0x21, 0x23, 0x25, 0x27, 0x29, 0x2B, 0x2D, 0x2F, 0x31, 0x33, 0x35, 0x37, 0x39, 0x3B, 0x3D, 0x3F] ∧
  (List.range 16).map (fun v => (columnOf 1 (BitVec.ofNat 4 v) true).toNat) =
    [0xA0, 0xA2, 0xA4, 0xA6, 0xA8, 0xAA, 0xAC, 0xAE, 0xB0, 0xB2, 0xB4, 0xB6, 0xB8, 0xBA, 0xBC, 0xBE]

/-- R195: the value is recovered from the column byte by the same position-derived inversion. -/
def Obligations.MaskingIsReversible : Prop :=
  ∀ (x : Nat) (v : BitVec 4) (m : Bool),
    ((columnOf x v m >>> 1) &&& 0x0F#8) ^^^ (if m then 0x0#8 else if x % 2 = 0 then 0xA#8 else 0x5#8) =
      v.setWidth 8

/-- COL_WRITE completes when one column fits: it writes the eight rows of R190 in column X, no other column, and moves
X by 1 (R192). -/
def Obligations.ColWriteWritesTheColumnAtTheCursor : Prop :=
  ∀ (v : BitVec 4) (m : Bool) (s : State), s.x.toNat + 1 ≤ s.gridW.toNat → s.gridW.toNat ≤ 111 →
    ∃ t, exec (.colWrite v m) s = .next t ∧ t.x.toNat = s.x.toNat + 1 ∧
      (∀ y < 8, gridBit t y s.x.toNat =
        if y = 0 then s.x.toNat % 2 == 0 else if y = 7 then s.x.toNat % 2 == 1
        else xor (if y = 5 then true else if y = 6 then false else v.getLsbD (y - 1))
          (!m && (y + s.x.toNat) % 2 == 0)) ∧
      (∀ c, c ≠ s.x.toNat → gridColumn t c = gridColumn s c) ∧ t = { s with grid := t.grid, x := t.x, err := .ok }

/-- BYTE_WRITE completes when two columns fit: the low nibble at X, the high nibble at X+1, no other column (R193). -/
def Obligations.ByteWriteWritesLowThenHighNibble : Prop :=
  ∀ (d : Symbol) (m : Bool) (s : State), s.x.toNat + 2 ≤ s.gridW.toNat → s.gridW.toNat ≤ 111 →
    ∃ t, exec (.byteWrite d m) s = .next t ∧ t.x.toNat = s.x.toNat + 2 ∧
      gridColumn t s.x.toNat = columnOf s.x.toNat (d.setWidth 4) m ∧
      gridColumn t (s.x.toNat + 1) = columnOf (s.x.toNat + 1) ((d >>> 4).setWidth 4) m ∧
      (∀ c, c ≠ s.x.toNat → c ≠ s.x.toNat + 1 → gridColumn t c = gridColumn s c) ∧
      t = { s with grid := t.grid, x := t.x, err := .ok }

/-- SKIP k completes when k columns fit: X moves by k and every column keeps its value (R194). -/
def Obligations.SkipMovesTheCursorOnly : Prop :=
  ∀ (k : Nat) (s : State), s.x.toNat + k ≤ s.gridW.toNat →
    ∃ t, exec (.skip k) s = .next t ∧ t.x.toNat = s.x.toNat + k ∧ t = { s with x := t.x, err := .ok }

/-- A cursor command that does not fit before GRID_W raises CURSOR_OVERFLOW and writes nothing; FINDER_R does so once
its sequence check has passed (R192 to R194, R215, R216). -/
def Obligations.ColumnsThatDoNotFitAreRefusedWhole : Prop :=
  ∀ s : State,
    let refused : Outcome := .next { s with err := .cursorOverflow, sticky := true }
    (s.gridW.toNat < s.x.toNat + 1 → ∀ v m, exec (.colWrite v m) s = refused) ∧
    (s.gridW.toNat < s.x.toNat + 2 → ∀ d m, exec (.byteWrite d m) s = refused) ∧
    (s.gridW.toNat < s.x.toNat + 3 → exec .finderL s = refused) ∧
    (∀ k, s.gridW.toNat < s.x.toNat + k → exec (.skip k) s = refused) ∧
    (s.gridW.toNat < s.x.toNat + 2 → 1 ≤ s.seqTotal.toNat → s.seqIdx.toNat < s.seqTotal.toNat →
      exec .finderR s = refused)

/-! ### Grid assembler -/

/-- GRID_INIT W completes for W in 1..111 with every column 0, GRID_W = W and X = 0, and raises BAD_WIDTH outside
(R214). -/
def Obligations.GridInitClearsEveryColumn : Prop :=
  ∀ (w : Nat) (s : State),
    (1 ≤ w → w ≤ 111 → ∃ t, exec (.gridInit w) s = .next t ∧ t.gridW.toNat = w ∧ t.x = 0#7 ∧
      (∀ c, gridColumn t c = 0#8) ∧ t = { s with grid := t.grid, gridW := t.gridW, x := t.x, err := .ok }) ∧
    (w = 0 ∨ 111 < w → exec (.gridInit w) s = .next { s with err := .badWidth, sticky := true })

/-- FINDER_L completes when three columns fit: 0xE7 in each, no other column (R215). -/
def Obligations.FinderLWritesThreeSolidColumns : Prop :=
  ∀ s : State, s.x.toNat + 3 ≤ s.gridW.toNat → s.gridW.toNat ≤ 111 →
    ∃ t, exec .finderL s = .next t ∧ t.x.toNat = s.x.toNat + 3 ∧
      (∀ c, gridColumn t c = if s.x.toNat ≤ c ∧ c < s.x.toNat + 3 then 0xE7#8 else gridColumn s c) ∧
      t = { s with grid := t.grid, x := t.x, err := .ok }

/-- FINDER_R completes when the sequence registers are legal and two columns fit: the bits of R213, rows 3 and 4 of the
two columns; no other column (R216). With illegal sequence registers it raises BAD_SEQUENCE. -/
def Obligations.FinderRMarksParityAndTheLastChunk : Prop :=
  ∀ s : State,
    (1 ≤ s.seqTotal.toNat → s.seqIdx.toNat < s.seqTotal.toNat → s.x.toNat + 2 ≤ s.gridW.toNat →
      s.gridW.toNat ≤ 111 →
      ∃ t, exec .finderR s = .next t ∧ t.x.toNat = s.x.toNat + 2 ∧
        gridColumn t s.x.toNat =
          (if s.seqIdx.toNat + 1 = s.seqTotal.toNat ∨ (s.seqIdx.toNat + 1) % 2 = 0 then 0xDB#8 else 0xC3#8) ∧
        gridColumn t (s.x.toNat + 1) =
          (if s.seqIdx.toNat + 1 = s.seqTotal.toNat ∨ (s.seqIdx.toNat + 1) % 2 = 1 then 0xDB#8 else 0xC3#8) ∧
        (∀ c, c ≠ s.x.toNat → c ≠ s.x.toNat + 1 → gridColumn t c = gridColumn s c) ∧
        t = { s with grid := t.grid, x := t.x, err := .ok }) ∧
    (s.seqTotal.toNat ≤ s.seqIdx.toNat → exec .finderR s = .next { s with err := .badSequence, sticky := true })

/-- ASSEMBLE completes for a message of 1 to 40 symbols and legal sequence registers: GEN, GEN_N and ECC as RS_ENCODE
with n = eccCount(L) leaves them, GRID_W = X = RESULT = W, and the columns of the layout of R211 (R217). -/
def Obligations.AssembleDrawsTheLayout : Prop :=
  ∀ s : State, 1 ≤ s.msgLen.toNat → s.msgLen.toNat ≤ 40 → 1 ≤ s.seqTotal.toNat →
    s.seqIdx.toNat < s.seqTotal.toNat →
    let len := s.msgLen.toNat
    let n := max 4 ((len + 3) / 4)
    let w := 11 + 2 * len + 2 * n
    ∃ t u, exec .assemble s = .next t ∧ exec (.rsEncode n) s = .next u ∧ t.err = .ok ∧
      t.gen = u.gen ∧ t.genN = u.genN ∧ t.ecc = u.ecc ∧
      t.gridW.toNat = w ∧ t.x.toNat = w ∧ t.result.toNat = w ∧
      (∀ c < 3, gridColumn t c = 0xE7#8) ∧ gridColumn t 3 = 0#8 ∧
      gridColumn t 4 = columnOf 4 (lo (s.seqIdx + 1#8)) true ∧
      gridColumn t 5 = columnOf 5 (hi (s.seqIdx + 1#8)) true ∧
      gridColumn t 6 = columnOf 6 (lo s.seqTotal) true ∧ gridColumn t 7 = columnOf 7 (hi s.seqTotal) true ∧
      (∀ i < len, gridColumn t (8 + 2 * i) = columnOf (8 + 2 * i) (lo (entry s.msg i)) false ∧
        gridColumn t (9 + 2 * i) = columnOf (9 + 2 * i) (hi (entry s.msg i)) false) ∧
      (∀ j < n,
        gridColumn t (8 + 2 * len + 2 * j) = columnOf (8 + 2 * len + 2 * j) (lo (entry u.ecc j)) false ∧
        gridColumn t (9 + 2 * len + 2 * j) = columnOf (9 + 2 * len + 2 * j) (hi (entry u.ecc j)) false) ∧
      gridColumn t (w - 3) = 0#8 ∧
      gridColumn t (w - 2) = (if s.seqIdx.toNat + 1 = s.seqTotal.toNat ∨ (s.seqIdx.toNat + 1) % 2 = 0
        then 0xDB#8 else 0xC3#8) ∧
      gridColumn t (w - 1) = (if s.seqIdx.toNat + 1 = s.seqTotal.toNat ∨ (s.seqIdx.toNat + 1) % 2 = 1
        then 0xDB#8 else 0xC3#8) ∧
      (∀ c, w ≤ c → gridColumn t c = 0#8) ∧
      t = { s with gen := t.gen, genN := t.genN, ecc := t.ecc, grid := t.grid, gridW := t.gridW, x := t.x,
                   result := t.result, err := .ok }

/-- R289: the manual sequence leaves what ASSEMBLE leaves, but for RESULT, which it leaves unchanged. -/
def Obligations.ManualSequenceEqualsAssemble : Prop :=
  ∀ s : State, 1 ≤ s.msgLen.toNat → s.msgLen.toNat ≤ 40 → 1 ≤ s.seqTotal.toNat →
    s.seqIdx.toNat < s.seqTotal.toNat →
    ∃ t u, exec .assemble s = .next t ∧ manualLine s = .next u ∧ u.result = s.result ∧
      t = { u with result := BitVec.ofNat 16 (lineWidth s.msgLen.toNat) }

/-- R219: the clock rows over the metadata, payload and ECC region of an assembled line. -/
def Obligations.AssembledLineKeepsTheClock : Prop :=
  ∀ s t : State, s.msgLen.toNat ≤ 40 → exec .assemble s = .next t → t.err = .ok →
    ∀ x, 4 ≤ x → x + 3 < t.gridW.toNat →
      gridBit t 0 x = decide (x % 2 = 0) ∧ gridBit t 7 x = decide (x % 2 ≠ 0)

/-- R220: the right finder of an assembled line marks the last chunk with both columns, and every other chunk with
exactly one, the left one when SEQ_IDX + 1 is even. -/
def Obligations.RightFinderMarksTheLastChunk : Prop :=
  ∀ s t : State, s.msgLen.toNat ≤ 40 → exec .assemble s = .next t → t.err = .ok →
    ∀ y, y = 3 ∨ y = 4 →
      (s.seqIdx.toNat + 1 = s.seqTotal.toNat →
        gridBit t y (t.gridW.toNat - 2) = true ∧ gridBit t y (t.gridW.toNat - 1) = true) ∧
      (s.seqIdx.toNat + 1 ≠ s.seqTotal.toNat →
        gridBit t y (t.gridW.toNat - 2) = decide ((s.seqIdx.toNat + 1) % 2 = 0) ∧
        gridBit t y (t.gridW.toNat - 1) = decide ((s.seqIdx.toNat + 1) % 2 = 1))

/-- R221: what ASSEMBLE leaves is a function of MSG[0..L-1], MSG_LEN, SEQ_IDX and SEQ_TOTAL only; issuing it twice gives
the same state. -/
def Obligations.AssembleDependsOnMessageAndSequenceOnly : Prop :=
  (∀ s s' t t' : State, message s = message s' → s.msgLen = s'.msgLen → s.seqIdx = s'.seqIdx →
    s.seqTotal = s'.seqTotal → exec .assemble s = .next t → exec .assemble s' = .next t' → t.err = .ok →
    t'.err = .ok ∧ t.gen = t'.gen ∧ t.genN = t'.genN ∧ t.ecc = t'.ecc ∧ t.grid = t'.grid ∧ t.gridW = t'.gridW ∧
      t.x = t'.x ∧ t.result = t'.result) ∧
  ∀ s t : State, exec .assemble s = .next t → exec .assemble t = .next t

/-! ### Errors -/

/-- R250: a command or a register write that raises an error changes STATUS only, and every command and register write
answers a next state, so the block takes the next access. -/
def Obligations.ErrorsChangeOnlyStatus : Prop :=
  (∀ (i : Instr) (s : State), ∃ t, exec i s = .next t ∧
    (t.err ≠ .ok → t = { s with err := t.err, sticky := true })) ∧
  (∀ (r : Reg) (v : Word) (s : State), ∃ t, writeReg r v s = .next t ∧
    (r ≠ .status → t.err ≠ .ok → t = { s with err := t.err, sticky := true }))

/-- Every command reports exactly the first check of R252 that fails, and OK when none does (R254 within one command;
R251: ERR is written by every command). A successful command leaves STICKY. -/
def Obligations.TheFirstFailingCheckPicksTheError : Prop :=
  ∀ (i : Instr) (s : State), ∃ t, exec i s = .next t ∧ t.err = firstError (commandChecks i s) ∧
    t.sticky = (s.sticky || t.err != .ok)

/-- R240: NOP clears STATUS.ERR and nothing else, whatever the state, and its only word is 0; no command and no register
write but one to STATUS clears STICKY; the rule's example. -/
def Obligations.NopClearsOnlyTheErrorCode : Prop :=
  (∀ s : State, exec .nop s = .next { s with err := .ok }) ∧
  (∀ w : Word, (decode w = .ok .nop ↔ w = 0#32) ∧ (opField w = 0#8 → w ≠ 0#32 → decode w = .error .reservedBits)) ∧
  (∀ (i : Instr) (s t : State), exec i s = .next t → s.sticky = true → t.sticky = true) ∧
  (∀ (r : Reg) (v : Word) (s t : State), r ≠ .status → writeReg r v s = .next t → s.sticky = true →
    t.sticky = true) ∧
  ∀ s t : State, statusWord s = 0x105#32 → exec .nop s = .next t → statusWord t = 0x100#32

/-! ### The register window -/

/-- The map of spec/20_memory.md R61: the offset of every register, every listed offset is some register's, and an
aligned 32-bit access at a register's offset reaches that register. -/
def Obligations.TheRegisterMapHasTheOffsetsOfTheTable : Prop :=
  regOffset .cmd = 0x000 ∧ regOffset .status = 0x004 ∧ regOffset .result = 0x008 ∧ regOffset .cursor = 0x00C ∧
  regOffset .gridW = 0x010 ∧ regOffset .msgLen = 0x014 ∧ regOffset .seqIdx = 0x018 ∧ regOffset .seqTotal = 0x01C ∧
  regOffset .payLen = 0x020 ∧ regOffset .genN = 0x024 ∧
  (∀ t : Fin 40, regOffset (.msg t) = 0x100 + 4 * t.val) ∧
  (∀ j : Fin 10, regOffset (.gen j) = 0x200 + 4 * j.val ∧ regOffset (.ecc j) = 0x240 + 4 * j.val ∧
    regOffset (.syn j) = 0x280 + 4 * j.val) ∧
  (∀ c : Fin 111, regOffset (.gridCol c) = 0x400 + 4 * c.val) ∧
  (∀ a : Nat, mappedOffset a = true ↔ ∃ r : Reg, regOffset r = a) ∧
  ∀ r : Reg, accessedReg (regOffset r) 4 = some r

/-- R63: an access is a bus error exactly when it is not 32 bits wide, not aligned or not mapped; the state is then as
before, and no data comes back. -/
def Obligations.BusErrorExactlyOutsideTheMap : Prop :=
  ∀ (addr size : Nat) (v : Word) (s : State),
    (serveEvent (.read addr size) s = .fault .busError ↔ ¬ (size = 4 ∧ addr % 4 = 0 ∧ mappedOffset addr = true)) ∧
    (serveEvent (.write addr size v) s = .fault .busError ↔ ¬ (size = 4 ∧ addr % 4 = 0 ∧ mappedOffset addr = true)) ∧
    (¬ (size = 4 ∧ addr % 4 = 0 ∧ mappedOffset addr = true) →
      respond (.read addr size) s = (.busError, s) ∧ respond (.write addr size v) s = (.busError, s))

/-- A read of a mapped register returns its value, zero-extended, CMD reads 0, and no register changes; the next read of
it returns the same (spec/20_memory.md R64). STATUS reads as the code of the table of spec/60_exceptions.md R251, all 15
of which are written out, with STICKY at bit 8. That the field `response` holds the answer is the model's own choice
(log entry 3). -/
def Obligations.ReadsReturnTheRegisterAndChangeNothing : Prop :=
  ∀ (r : Reg) (s : State),
    serveEvent (.read (regOffset r) 4) s = .next { s with response := .data (readReg r s) } ∧
    readReg .cmd s = 0x00000000#32 ∧ (readReg .result s).toNat = s.result.toNat ∧
    (readReg .cursor s).toNat = s.x.toNat ∧ (readReg .gridW s).toNat = s.gridW.toNat ∧
    (readReg .msgLen s).toNat = s.msgLen.toNat ∧ (readReg .seqIdx s).toNat = s.seqIdx.toNat ∧
    (readReg .seqTotal s).toNat = s.seqTotal.toNat ∧ (readReg .payLen s).toNat = s.payLen.toNat ∧
    (readReg .genN s).toNat = s.genN.toNat ∧
    (readReg .status s).toNat = (errorCode s.err).toNat + 256 * s.sticky.toNat ∧
    errorCode .ok = 0x00#8 ∧ errorCode .illegalOpcode = 0x01#8 ∧ errorCode .reservedBits = 0x02#8 ∧
    errorCode .logOfZero = 0x03#8 ∧ errorCode .badEccCount = 0x04#8 ∧ errorCode .noGenerator = 0x05#8 ∧
    errorCode .emptyMessage = 0x06#8 ∧ errorCode .badWidth = 0x07#8 ∧ errorCode .cursorOverflow = 0x08#8 ∧
    errorCode .badSequence = 0x09#8 ∧ errorCode .tooManyChunks = 0x0A#8 ∧ errorCode .invalidSymbol = 0x0B#8 ∧
    errorCode .badLength = 0x0C#8 ∧ errorCode .badValue = 0x0D#8 ∧ errorCode .readOnly = 0x0E#8 ∧
    (∀ t : Fin 40, (readReg (.msg t) s).toNat = s.msg[t].toNat) ∧
    (∀ j : Fin 10, (readReg (.gen j) s).toNat = s.gen[j].toNat ∧ (readReg (.ecc j) s).toNat = s.ecc[j].toNat ∧
      (readReg (.syn j) s).toNat = s.syn[j].toNat) ∧
    (∀ c : Fin 111, (readReg (.gridCol c) s).toNat = s.grid[c].toNat) ∧
    readReg r { s with response := .data (readReg r s) } = readReg r s

/-- R65: a checked write above the register's limit changes only STATUS, with the register's code; one within it stores
the whole value, clears ERR, and leaves every other register; the rule's example. Said of the write of the register and
of the host access MemWrite(a, 4, v) at its offset, which besides may change the model's own field `response` only. -/
def Obligations.CheckedWritesStoreOrRefuse : Prop :=
  (∀ (r : Reg) (limit : Nat) (code : ErrCode) (v : Word) (s : State), checkedLimit r = some (limit, code) →
    (limit < v.toNat → writeReg r v s = .next { s with err := code, sticky := true }) ∧
    (v.toNat ≤ limit → ∃ t, writeReg r v s = .next t ∧ readReg r t = v ∧ t.err = .ok ∧ t.sticky = s.sticky ∧
      t.pending = s.pending ∧ t.response = s.response ∧
      ∀ r', r' ≠ r → r' ≠ .status → readReg r' t = readReg r' s) ∧
    (limit < v.toNat → ∃ t, serveEvent (.write (regOffset r) 4 v) s = .next t ∧
      t = { s with err := code, sticky := true, response := t.response }) ∧
    (v.toNat ≤ limit → ∃ t, serveEvent (.write (regOffset r) 4 v) s = .next t ∧ readReg r t = v ∧ t.err = .ok ∧
      t.sticky = s.sticky ∧ t.pending = s.pending ∧
      ∀ r', r' ≠ r → r' ≠ .status → readReg r' t = readReg r' s)) ∧
  ∀ s : State, (∃ t, writeReg (.msg 0) 0x12C#32 s = .next t ∧ t.msg = s.msg ∧ statusWord t = 0x10B#32) ∧
    ∃ t, serveEvent (.write 0x100 4 0x12C#32) s = .next t ∧ t.msg = s.msg ∧ statusWord t = 0x10B#32

/-- R66: a write to a read-only register is dropped and raises READ_ONLY, code 0x0E. Said of the write of the register
and of the host access at its offset, which besides may change the model's own field `response` only. -/
def Obligations.ReadOnlyWritesAreDropped : Prop :=
  ∀ (r : Reg) (v : Word) (s : State), isReadOnly r = true →
    writeReg r v s = .next { s with err := .readOnly, sticky := true } ∧ errorCode .readOnly = 0x0E#8 ∧
    ∃ t, serveEvent (.write (regOffset r) 4 v) s = .next t ∧
      t = { s with err := .readOnly, sticky := true, response := t.response }

/-- R67: a write to STATUS clears STICKY if bit 8 is 1 and leaves it if not; nothing else changes. Said of the write of
the register and of the host access at its offset, which besides may change the model's own field `response` only. -/
def Obligations.StatusBitEightIsWriteOneToClear : Prop :=
  ∀ (v : Word) (s : State),
    (v.getLsbD 8 = true → writeReg .status v s = .next { s with sticky := false }) ∧
    (v.getLsbD 8 = false → writeReg .status v s = .next s) ∧
    ∃ t, serveEvent (.write (regOffset .status) 4 v) s = .next t ∧
      (v.getLsbD 8 = true → t = { s with sticky := false, response := t.response }) ∧
      (v.getLsbD 8 = false → t = { s with response := t.response })

/-! ### Reset and invariants -/

/-- After reset every register reads 0 and STATUS is clear, and a reset event gives that state whatever went before
(spec/10_state.md R42, spec/70_reset_and_hazards.md R280). That the event keeps what is still pending (log entry 7) and
leaves `response` idle (log entries 3 and 7) is the model's own choice. -/
def Obligations.ResetClearsEveryRegister : Prop :=
  (∀ r : Reg, readReg r State.reset = 0#32) ∧ State.reset.err = .ok ∧ State.reset.sticky = false ∧
  (∀ y c, gridBit State.reset y c = false) ∧
  ∀ s : State, serveEvent .reset s = .next { State.reset with pending := s.pending }

/-- The two invariants hold at reset. -/
def Obligations.ResetMeetsTheInvariants : Prop := StateInv State.reset ∧ GeneratorInv State.reset

/-- R41: every step keeps the invariants of the registers, whatever event it serves. -/
def Obligations.EveryStepKeepsTheStateInvariant : Prop :=
  ∀ s t : State, StateInv s → step s = .next t → StateInv t

/-- R25, R26: every step keeps GEN equal to the generator of degree GEN_N, padded with 0. -/
def Obligations.EveryStepKeepsTheGeneratorWhole : Prop :=
  ∀ s t : State, GeneratorInv s → step s = .next t → GeneratorInv t

/-! ### Whole-machine rules -/

/-- Every command but the cursor commands leaves the same state issued twice as once (R77). -/
def Obligations.NonCursorCommandsAreIdempotent : Prop :=
  ∀ (i : Instr) (s t : State), isCursorCommand i = false → exec i s = .next t → exec i t = .next t

/-- Between commands that start a grid the cursor never moves back and no column below it changes (R286; ASSEMBLE
starts a grid as GRID_INIT does, log entry 15). -/
def Obligations.TheCursorOnlyMovesForward : Prop :=
  ∀ (i : Instr) (s t : State), startsGrid i = false → exec i s = .next t →
    s.x.toNat ≤ t.x.toNat ∧ t.gridW = s.gridW ∧ ∀ c < s.x.toNat, gridColumn t c = gridColumn s c

/-- R35: only the eight commands listed write RESULT, and only when they succeed; register writes leave it; in a state
that meets the invariant the value written is at most 10160. -/
def Obligations.OnlyScalarCommandsWriteResult : Prop :=
  (∀ (i : Instr) (s t : State), exec i s = .next t → producesResult i = false ∨ t.err ≠ .ok → t.result = s.result) ∧
  (∀ (r : Reg) (v : Word) (s t : State), r ≠ .cmd → writeReg r v s = .next t → t.result = s.result) ∧
  (∀ s : State, readReg .result s = s.result.setWidth 32) ∧
  (∀ (i : Instr) (s t : State), StateInv s → i.wellFormed = true → producesResult i = true →
    exec i s = .next t → t.err = .ok → t.result.toNat ≤ 10160) ∧
  ∀ s : State, s.payLen = 10200#14 → ∃ t, exec (.selChunk 254) s = .next t ∧ t.result.toNat = 10160

/-- Each register is written by the commands that its rule names and by no other (R23, R25, R27, R29, R31 to R34; the
"written by" column of R61). -/
def Obligations.RegistersAreWrittenOnlyByTheirCommands : Prop :=
  ∀ (i : Instr) (s t : State), exec i s = .next t →
    t.msg = s.msg ∧ t.pending = s.pending ∧ t.response = s.response ∧
    (buildsGenerator i = false → t.gen = s.gen ∧ t.genN = s.genN) ∧
    (computesParity i = false → t.ecc = s.ecc) ∧
    (startsGrid i = false → t.gridW = s.gridW) ∧
    (startsGrid i = false → isCursorCommand i = false → t.grid = s.grid ∧ t.x = s.x) ∧
    ((∀ n, i ≠ .rsSynd n) → t.syn = s.syn) ∧
    ((∀ p, i ≠ .plan p) → t.payLen = s.payLen ∧ t.seqTotal = s.seqTotal) ∧
    ((∀ k, i ≠ .selChunk k) → t.msgLen = s.msgLen) ∧
    ((∀ p, i ≠ .plan p) → (∀ k, i ≠ .selChunk k) → t.seqIdx = s.seqIdx)
end

