-- ==== Sys2Proof/Laws/State.lean ====
section
/-! SUPPORT. One lemma per field per shared update of the state, so that no proof unfolds a record update. -/

namespace Sys2Proof.Machine

variable (s : State)

/-! ### raiseError -/

@[simp] theorem raiseError_msg (c : ErrCode) : (raiseError c s).msg = s.msg := rfl
@[simp] theorem raiseError_msgLen (c : ErrCode) : (raiseError c s).msgLen = s.msgLen := rfl
@[simp] theorem raiseError_gen (c : ErrCode) : (raiseError c s).gen = s.gen := rfl
@[simp] theorem raiseError_genN (c : ErrCode) : (raiseError c s).genN = s.genN := rfl
@[simp] theorem raiseError_ecc (c : ErrCode) : (raiseError c s).ecc = s.ecc := rfl
@[simp] theorem raiseError_grid (c : ErrCode) : (raiseError c s).grid = s.grid := rfl
@[simp] theorem raiseError_gridW (c : ErrCode) : (raiseError c s).gridW = s.gridW := rfl
@[simp] theorem raiseError_x (c : ErrCode) : (raiseError c s).x = s.x := rfl
@[simp] theorem raiseError_seqIdx (c : ErrCode) : (raiseError c s).seqIdx = s.seqIdx := rfl
@[simp] theorem raiseError_seqTotal (c : ErrCode) : (raiseError c s).seqTotal = s.seqTotal := rfl
@[simp] theorem raiseError_payLen (c : ErrCode) : (raiseError c s).payLen = s.payLen := rfl
@[simp] theorem raiseError_syn (c : ErrCode) : (raiseError c s).syn = s.syn := rfl
@[simp] theorem raiseError_result (c : ErrCode) : (raiseError c s).result = s.result := rfl
@[simp] theorem raiseError_err (c : ErrCode) : (raiseError c s).err = c := rfl
@[simp] theorem raiseError_sticky (c : ErrCode) : (raiseError c s).sticky = true := rfl
@[simp] theorem raiseError_pending (c : ErrCode) : (raiseError c s).pending = s.pending := rfl
@[simp] theorem raiseError_response (c : ErrCode) : (raiseError c s).response = s.response := rfl

/-! ### succeed -/

@[simp] theorem succeed_msg : (succeed s).msg = s.msg := rfl
@[simp] theorem succeed_msgLen : (succeed s).msgLen = s.msgLen := rfl
@[simp] theorem succeed_gen : (succeed s).gen = s.gen := rfl
@[simp] theorem succeed_genN : (succeed s).genN = s.genN := rfl
@[simp] theorem succeed_ecc : (succeed s).ecc = s.ecc := rfl
@[simp] theorem succeed_grid : (succeed s).grid = s.grid := rfl
@[simp] theorem succeed_gridW : (succeed s).gridW = s.gridW := rfl
@[simp] theorem succeed_x : (succeed s).x = s.x := rfl
@[simp] theorem succeed_seqIdx : (succeed s).seqIdx = s.seqIdx := rfl
@[simp] theorem succeed_seqTotal : (succeed s).seqTotal = s.seqTotal := rfl
@[simp] theorem succeed_payLen : (succeed s).payLen = s.payLen := rfl
@[simp] theorem succeed_syn : (succeed s).syn = s.syn := rfl
@[simp] theorem succeed_result : (succeed s).result = s.result := rfl
@[simp] theorem succeed_err : (succeed s).err = .ok := rfl
@[simp] theorem succeed_sticky : (succeed s).sticky = s.sticky := rfl
@[simp] theorem succeed_pending : (succeed s).pending = s.pending := rfl
@[simp] theorem succeed_response : (succeed s).response = s.response := rfl

/-! ### writeStatus -/

@[simp] theorem writeStatus_msg (v : Word) : (writeStatus v s).msg = s.msg := rfl
@[simp] theorem writeStatus_msgLen (v : Word) : (writeStatus v s).msgLen = s.msgLen := rfl
@[simp] theorem writeStatus_gen (v : Word) : (writeStatus v s).gen = s.gen := rfl
@[simp] theorem writeStatus_genN (v : Word) : (writeStatus v s).genN = s.genN := rfl
@[simp] theorem writeStatus_ecc (v : Word) : (writeStatus v s).ecc = s.ecc := rfl
@[simp] theorem writeStatus_grid (v : Word) : (writeStatus v s).grid = s.grid := rfl
@[simp] theorem writeStatus_gridW (v : Word) : (writeStatus v s).gridW = s.gridW := rfl
@[simp] theorem writeStatus_x (v : Word) : (writeStatus v s).x = s.x := rfl
@[simp] theorem writeStatus_seqIdx (v : Word) : (writeStatus v s).seqIdx = s.seqIdx := rfl
@[simp] theorem writeStatus_seqTotal (v : Word) : (writeStatus v s).seqTotal = s.seqTotal := rfl
@[simp] theorem writeStatus_payLen (v : Word) : (writeStatus v s).payLen = s.payLen := rfl
@[simp] theorem writeStatus_syn (v : Word) : (writeStatus v s).syn = s.syn := rfl
@[simp] theorem writeStatus_result (v : Word) : (writeStatus v s).result = s.result := rfl
@[simp] theorem writeStatus_err (v : Word) : (writeStatus v s).err = s.err := rfl
@[simp] theorem writeStatus_sticky (v : Word) : (writeStatus v s).sticky = (s.sticky && !v.getLsbD 8) := rfl
@[simp] theorem writeStatus_pending (v : Word) : (writeStatus v s).pending = s.pending := rfl
@[simp] theorem writeStatus_response (v : Word) : (writeStatus v s).response = s.response := rfl

/-! ### setResult -/

@[simp] theorem setResult_msg (v : Nat) : (setResult v s).msg = s.msg := rfl
@[simp] theorem setResult_msgLen (v : Nat) : (setResult v s).msgLen = s.msgLen := rfl
@[simp] theorem setResult_gen (v : Nat) : (setResult v s).gen = s.gen := rfl
@[simp] theorem setResult_genN (v : Nat) : (setResult v s).genN = s.genN := rfl
@[simp] theorem setResult_ecc (v : Nat) : (setResult v s).ecc = s.ecc := rfl
@[simp] theorem setResult_grid (v : Nat) : (setResult v s).grid = s.grid := rfl
@[simp] theorem setResult_gridW (v : Nat) : (setResult v s).gridW = s.gridW := rfl
@[simp] theorem setResult_x (v : Nat) : (setResult v s).x = s.x := rfl
@[simp] theorem setResult_seqIdx (v : Nat) : (setResult v s).seqIdx = s.seqIdx := rfl
@[simp] theorem setResult_seqTotal (v : Nat) : (setResult v s).seqTotal = s.seqTotal := rfl
@[simp] theorem setResult_payLen (v : Nat) : (setResult v s).payLen = s.payLen := rfl
@[simp] theorem setResult_syn (v : Nat) : (setResult v s).syn = s.syn := rfl
@[simp] theorem setResult_result (v : Nat) : (setResult v s).result = BitVec.ofNat 16 v := rfl
@[simp] theorem setResult_err (v : Nat) : (setResult v s).err = s.err := rfl
@[simp] theorem setResult_sticky (v : Nat) : (setResult v s).sticky = s.sticky := rfl
@[simp] theorem setResult_pending (v : Nat) : (setResult v s).pending = s.pending := rfl
@[simp] theorem setResult_response (v : Nat) : (setResult v s).response = s.response := rfl

/-! ### advance -/

@[simp] theorem advance_msg (k : Nat) : (advance k s).msg = s.msg := rfl
@[simp] theorem advance_msgLen (k : Nat) : (advance k s).msgLen = s.msgLen := rfl
@[simp] theorem advance_gen (k : Nat) : (advance k s).gen = s.gen := rfl
@[simp] theorem advance_genN (k : Nat) : (advance k s).genN = s.genN := rfl
@[simp] theorem advance_ecc (k : Nat) : (advance k s).ecc = s.ecc := rfl
@[simp] theorem advance_grid (k : Nat) : (advance k s).grid = s.grid := rfl
@[simp] theorem advance_gridW (k : Nat) : (advance k s).gridW = s.gridW := rfl
@[simp] theorem advance_x (k : Nat) : (advance k s).x = BitVec.ofNat 7 (s.x.toNat + k) := rfl
@[simp] theorem advance_seqIdx (k : Nat) : (advance k s).seqIdx = s.seqIdx := rfl
@[simp] theorem advance_seqTotal (k : Nat) : (advance k s).seqTotal = s.seqTotal := rfl
@[simp] theorem advance_payLen (k : Nat) : (advance k s).payLen = s.payLen := rfl
@[simp] theorem advance_syn (k : Nat) : (advance k s).syn = s.syn := rfl
@[simp] theorem advance_result (k : Nat) : (advance k s).result = s.result := rfl
@[simp] theorem advance_err (k : Nat) : (advance k s).err = s.err := rfl
@[simp] theorem advance_sticky (k : Nat) : (advance k s).sticky = s.sticky := rfl
@[simp] theorem advance_pending (k : Nat) : (advance k s).pending = s.pending := rfl
@[simp] theorem advance_response (k : Nat) : (advance k s).response = s.response := rfl

/-! ### putColumn -/

@[simp] theorem putColumn_msg (c : Column) : (putColumn c s).msg = s.msg := rfl
@[simp] theorem putColumn_msgLen (c : Column) : (putColumn c s).msgLen = s.msgLen := rfl
@[simp] theorem putColumn_gen (c : Column) : (putColumn c s).gen = s.gen := rfl
@[simp] theorem putColumn_genN (c : Column) : (putColumn c s).genN = s.genN := rfl
@[simp] theorem putColumn_ecc (c : Column) : (putColumn c s).ecc = s.ecc := rfl
@[simp] theorem putColumn_grid (c : Column) : (putColumn c s).grid = s.grid.setIfInBounds s.x.toNat c := rfl
@[simp] theorem putColumn_gridW (c : Column) : (putColumn c s).gridW = s.gridW := rfl
@[simp] theorem putColumn_x (c : Column) : (putColumn c s).x = BitVec.ofNat 7 (s.x.toNat + 1) := rfl
@[simp] theorem putColumn_seqIdx (c : Column) : (putColumn c s).seqIdx = s.seqIdx := rfl
@[simp] theorem putColumn_seqTotal (c : Column) : (putColumn c s).seqTotal = s.seqTotal := rfl
@[simp] theorem putColumn_payLen (c : Column) : (putColumn c s).payLen = s.payLen := rfl
@[simp] theorem putColumn_syn (c : Column) : (putColumn c s).syn = s.syn := rfl
@[simp] theorem putColumn_result (c : Column) : (putColumn c s).result = s.result := rfl
@[simp] theorem putColumn_err (c : Column) : (putColumn c s).err = s.err := rfl
@[simp] theorem putColumn_sticky (c : Column) : (putColumn c s).sticky = s.sticky := rfl
@[simp] theorem putColumn_pending (c : Column) : (putColumn c s).pending = s.pending := rfl
@[simp] theorem putColumn_response (c : Column) : (putColumn c s).response = s.response := rfl

/-! ### clearGrid -/

@[simp] theorem clearGrid_msg (w : Nat) : (clearGrid w s).msg = s.msg := rfl
@[simp] theorem clearGrid_msgLen (w : Nat) : (clearGrid w s).msgLen = s.msgLen := rfl
@[simp] theorem clearGrid_gen (w : Nat) : (clearGrid w s).gen = s.gen := rfl
@[simp] theorem clearGrid_genN (w : Nat) : (clearGrid w s).genN = s.genN := rfl
@[simp] theorem clearGrid_ecc (w : Nat) : (clearGrid w s).ecc = s.ecc := rfl
@[simp] theorem clearGrid_grid (w : Nat) : (clearGrid w s).grid = Vector.replicate 111 0#8 := rfl
@[simp] theorem clearGrid_gridW (w : Nat) : (clearGrid w s).gridW = BitVec.ofNat 7 w := rfl
@[simp] theorem clearGrid_x (w : Nat) : (clearGrid w s).x = 0#7 := rfl
@[simp] theorem clearGrid_seqIdx (w : Nat) : (clearGrid w s).seqIdx = s.seqIdx := rfl
@[simp] theorem clearGrid_seqTotal (w : Nat) : (clearGrid w s).seqTotal = s.seqTotal := rfl
@[simp] theorem clearGrid_payLen (w : Nat) : (clearGrid w s).payLen = s.payLen := rfl
@[simp] theorem clearGrid_syn (w : Nat) : (clearGrid w s).syn = s.syn := rfl
@[simp] theorem clearGrid_result (w : Nat) : (clearGrid w s).result = s.result := rfl
@[simp] theorem clearGrid_err (w : Nat) : (clearGrid w s).err = s.err := rfl
@[simp] theorem clearGrid_sticky (w : Nat) : (clearGrid w s).sticky = s.sticky := rfl
@[simp] theorem clearGrid_pending (w : Nat) : (clearGrid w s).pending = s.pending := rfl
@[simp] theorem clearGrid_response (w : Nat) : (clearGrid w s).response = s.response := rfl

/-! ### installGenerator -/

@[simp] theorem installGenerator_msg (n : Nat) : (installGenerator n s).msg = s.msg := rfl
@[simp] theorem installGenerator_msgLen (n : Nat) : (installGenerator n s).msgLen = s.msgLen := rfl
@[simp] theorem installGenerator_gen (n : Nat) : (installGenerator n s).gen = pad 10 (generator n) := rfl
@[simp] theorem installGenerator_genN (n : Nat) : (installGenerator n s).genN = BitVec.ofNat 4 n := rfl
@[simp] theorem installGenerator_ecc (n : Nat) : (installGenerator n s).ecc = s.ecc := rfl
@[simp] theorem installGenerator_grid (n : Nat) : (installGenerator n s).grid = s.grid := rfl
@[simp] theorem installGenerator_gridW (n : Nat) : (installGenerator n s).gridW = s.gridW := rfl
@[simp] theorem installGenerator_x (n : Nat) : (installGenerator n s).x = s.x := rfl
@[simp] theorem installGenerator_seqIdx (n : Nat) : (installGenerator n s).seqIdx = s.seqIdx := rfl
@[simp] theorem installGenerator_seqTotal (n : Nat) : (installGenerator n s).seqTotal = s.seqTotal := rfl
@[simp] theorem installGenerator_payLen (n : Nat) : (installGenerator n s).payLen = s.payLen := rfl
@[simp] theorem installGenerator_syn (n : Nat) : (installGenerator n s).syn = s.syn := rfl
@[simp] theorem installGenerator_result (n : Nat) : (installGenerator n s).result = s.result := rfl
@[simp] theorem installGenerator_err (n : Nat) : (installGenerator n s).err = s.err := rfl
@[simp] theorem installGenerator_sticky (n : Nat) : (installGenerator n s).sticky = s.sticky := rfl
@[simp] theorem installGenerator_pending (n : Nat) : (installGenerator n s).pending = s.pending := rfl
@[simp] theorem installGenerator_response (n : Nat) : (installGenerator n s).response = s.response := rfl

/-! ### installRemainder -/

@[simp] theorem installRemainder_msg (g : List Symbol) : (installRemainder g s).msg = s.msg := rfl
@[simp] theorem installRemainder_msgLen (g : List Symbol) : (installRemainder g s).msgLen = s.msgLen := rfl
@[simp] theorem installRemainder_gen (g : List Symbol) : (installRemainder g s).gen = s.gen := rfl
@[simp] theorem installRemainder_genN (g : List Symbol) : (installRemainder g s).genN = s.genN := rfl
@[simp] theorem installRemainder_ecc (g : List Symbol) : (installRemainder g s).ecc = pad 10 (remainder (message s) g) := rfl
@[simp] theorem installRemainder_grid (g : List Symbol) : (installRemainder g s).grid = s.grid := rfl
@[simp] theorem installRemainder_gridW (g : List Symbol) : (installRemainder g s).gridW = s.gridW := rfl
@[simp] theorem installRemainder_x (g : List Symbol) : (installRemainder g s).x = s.x := rfl
@[simp] theorem installRemainder_seqIdx (g : List Symbol) : (installRemainder g s).seqIdx = s.seqIdx := rfl
@[simp] theorem installRemainder_seqTotal (g : List Symbol) : (installRemainder g s).seqTotal = s.seqTotal := rfl
@[simp] theorem installRemainder_payLen (g : List Symbol) : (installRemainder g s).payLen = s.payLen := rfl
@[simp] theorem installRemainder_syn (g : List Symbol) : (installRemainder g s).syn = s.syn := rfl
@[simp] theorem installRemainder_result (g : List Symbol) : (installRemainder g s).result = s.result := rfl
@[simp] theorem installRemainder_err (g : List Symbol) : (installRemainder g s).err = s.err := rfl
@[simp] theorem installRemainder_sticky (g : List Symbol) : (installRemainder g s).sticky = s.sticky := rfl
@[simp] theorem installRemainder_pending (g : List Symbol) : (installRemainder g s).pending = s.pending := rfl
@[simp] theorem installRemainder_response (g : List Symbol) : (installRemainder g s).response = s.response := rfl

end Sys2Proof.Machine
end

