-- ==== Sys2Proof/Laws/Ops.lean ====
section
/-! SUPPORT. What each shared operation can do, said once: register arrays, packed columns, and columns written at the
cursor. -/

namespace Sys2Proof.Machine

/-! ### Register arrays -/

theorem entry_eq_getElem {n : Nat} (v : Vector (BitVec 8) n) {i : Nat} (h : i < n) : entry v i = v[i] := by
  simp [entry, List.getD_eq_getElem?_getD, h]

theorem entry_beyond {n : Nat} (v : Vector (BitVec 8) n) {i : Nat} (h : n ≤ i) : entry v i = 0#8 := by
  simp [entry, List.getD_eq_getElem?_getD, h]

theorem entry_replicate (n i : Nat) : entry (Vector.replicate n 0#8) i = 0#8 := by
  rcases Nat.lt_or_ge i n with h | h
  · simp [entry_eq_getElem _ h]
  · exact entry_beyond _ h

/-- A write reads back at its own index and leaves every other entry alone. -/
theorem entry_setIfInBounds {n : Nat} (v : Vector (BitVec 8) n) (i j : Nat) (a : BitVec 8) :
    entry (v.setIfInBounds i a) j = if i = j ∧ j < n then a else entry v j := by
  rcases Nat.lt_or_ge j n with h | h
  · rw [entry_eq_getElem _ h, entry_eq_getElem _ h, Vector.getElem_setIfInBounds h]
    simp [h]
  · rw [entry_beyond _ h, entry_beyond _ h, if_neg (by omega)]

/-- Two register arrays with equal entries are equal. -/
theorem vector_ext_entry {n : Nat} {v w : Vector (BitVec 8) n} (h : ∀ i < n, entry v i = entry w i) : v = w := by
  apply Vector.ext
  intro i hi
  simpa [entry_eq_getElem _ hi] using h i hi

/-- The entries of `pad`: the list's, then zeros. -/
theorem entry_pad (n : Nat) (l : List Symbol) {i : Nat} (h : i < n) : entry (pad n l) i = l.getD i 0#8 := by
  simp only [entry, pad, Vector.toList_mk, List.getD_eq_getElem?_getD]
  rw [List.getElem?_take_of_lt h]
  rcases Nat.lt_or_ge i l.length with hl | hl
  · simp [List.getElem?_append_left hl]
  · rw [List.getElem?_append_right hl, List.getElem?_eq_none hl]
    simp [show i - l.length < n by omega]

theorem entry_pad_beyond (n : Nat) (l : List Symbol) {i : Nat} (h : l.length ≤ i) : entry (pad n l) i = 0#8 := by
  rcases Nat.lt_or_ge i n with hn | hn
  · rw [entry_pad n l hn]
    simp [List.getD_eq_getElem?_getD, h]
  · exact entry_beyond _ hn

/-- The first entries of `pad n l` are `l`, when it fits. -/
theorem take_pad (n : Nat) (l : List Symbol) (h : l.length ≤ n) : (pad n l).toList.take l.length = l := by
  simp [pad, List.take_take, Nat.min_eq_left h]

/-! ### Packed columns -/

/-- Row y of a packed column is the row it was packed from (spec/43_column_writer.md R190). -/
theorem packRows_getLsbD (row : Nat → Bool) {y : Nat} (h : y < 8) : (packRows row).getLsbD y = row y := by
  have bits : ∀ r0 r1 r2 r3 r4 r5 r6 r7 : Bool, ∀ k : Fin 8,
      (BitVec.ofNat 8 (r0.toNat * 1 + (r1.toNat * 2 + (r2.toNat * 4 + (r3.toNat * 8 + (r4.toNat * 16 +
        (r5.toNat * 32 + (r6.toNat * 64 + (r7.toNat * 128 + 0))))))))).getLsbD k
        = [r0, r1, r2, r3, r4, r5, r6, r7].getD k false := by decide +kernel
  have := bits (row 0) (row 1) (row 2) (row 3) (row 4) (row 5) (row 6) (row 7) ⟨y, h⟩
  have unfolded : packRows row = BitVec.ofNat 8 ((row 0).toNat * 1 + ((row 1).toNat * 2 + ((row 2).toNat * 4 +
      ((row 3).toNat * 8 + ((row 4).toNat * 16 + ((row 5).toNat * 32 + ((row 6).toNat * 64 +
      ((row 7).toNat * 128 + 0)))))))) := rfl
  rw [unfolded]
  refine this.trans ?_
  interval_cases y <;> rfl

/-- Row r of Col(x, v, m). -/
theorem columnOf_row (x : Nat) (v : BitVec 4) (m : Bool) {r : Nat} (h : r < 8) :
    (columnOf x v m).getLsbD r = columnRow x v m r := packRows_getLsbD _ h

theorem leftFinderColumn_eq : leftFinderColumn = 0xE7#8 := by decide

theorem rightFinderColumn_eq (c : Bool) : rightFinderColumn c = if c then 0xDB#8 else 0xC3#8 := by
  cases c <;> decide

/-! ### The checks, as propositions -/

@[simp] theorem columnsFit_iff (k : Nat) (s : State) :
    columnsFit k s = true ↔ s.x.toNat + k ≤ s.gridW.toNat := by simp [columnsFit]

@[simp] theorem eccCountLegal_iff (n : Nat) : eccCountLegal n = true ↔ 1 ≤ n ∧ n ≤ 10 := by
  simp [eccCountLegal]

@[simp] theorem sequenceLegal_iff (s : State) :
    sequenceLegal s = true ↔ 1 ≤ s.seqTotal.toNat ∧ s.seqIdx.toNat < s.seqTotal.toNat := by
  simp [sequenceLegal]

/-! ### Columns at the cursor -/

theorem gridColumn_beyond (s : State) {c : Nat} (h : 111 ≤ c) : gridColumn s c = 0#8 := entry_beyond _ h

@[simp] theorem gridColumn_clearGrid (w : Nat) (s : State) (c : Nat) : gridColumn (clearGrid w s) c = 0#8 :=
  entry_replicate 111 c

@[simp] theorem gridColumn_advance (k : Nat) (s : State) (c : Nat) : gridColumn (advance k s) c = gridColumn s c :=
  rfl

/-- The cursor after `advance`, where 7 bits hold it. -/
theorem advance_x_toNat {k : Nat} {s : State} (h : s.x.toNat + k < 128) :
    (advance k s).x.toNat = s.x.toNat + k := by
  simp [Nat.mod_eq_of_lt h]

theorem putColumn_x_toNat {c : Column} {s : State} (h : s.x.toNat < 127) :
    (putColumn c s).x.toNat = s.x.toNat + 1 := by
  simp [Nat.mod_eq_of_lt (show s.x.toNat + 1 < 128 by omega)]

/-- One column is written, the one at the cursor. -/
theorem gridColumn_putColumn (c : Column) (s : State) (k : Nat) :
    gridColumn (putColumn c s) k = if s.x.toNat = k ∧ k < 111 then c else gridColumn s k :=
  entry_setIfInBounds s.grid s.x.toNat k c

/-- Writing columns touches the grid and the cursor only. -/
theorem putColumns_frame (cs : List Column) (s : State) :
    putColumns cs s = { s with grid := (putColumns cs s).grid, x := (putColumns cs s).x } := by
  induction cs generalizing s with
  | nil => rfl
  | cons c cs ih => exact ih (putColumn c s)

theorem putColumns_append (cs ds : List Column) (s : State) :
    putColumns (cs ++ ds) s = putColumns ds (putColumns cs s) := by
  induction cs generalizing s with
  | nil => rfl
  | cons c cs ih => exact ih (putColumn c s)

/-- The cursor moves by the number of columns. -/
theorem putColumns_x_toNat (cs : List Column) {s : State} (h : s.x.toNat + cs.length < 128) :
    (putColumns cs s).x.toNat = s.x.toNat + cs.length := by
  induction cs generalizing s with
  | nil => rfl
  | cons c cs ih =>
    simp only [List.length_cons] at h
    have step : (putColumn c s).x.toNat = s.x.toNat + 1 := putColumn_x_toNat (by omega)
    have := ih (s := putColumn c s) (by omega)
    simp only [putColumns, List.length_cons]
    omega

/-- The columns written are those of the list, in order from the cursor; every other column is as before. -/
theorem gridColumn_putColumns (cs : List Column) {s : State} (h : s.x.toNat + cs.length ≤ 111) (k : Nat) :
    gridColumn (putColumns cs s) k =
      if s.x.toNat ≤ k ∧ k < s.x.toNat + cs.length then cs.getD (k - s.x.toNat) 0#8 else gridColumn s k := by
  induction cs generalizing s with
  | nil => rw [if_neg (by simp)]; rfl
  | cons c cs ih =>
    simp only [List.length_cons] at h
    have step : (putColumn c s).x.toNat = s.x.toNat + 1 := putColumn_x_toNat (by omega)
    simp only [putColumns]
    rw [ih (s := putColumn c s) (by omega), gridColumn_putColumn, step]
    simp only [List.length_cons]
    rcases Nat.lt_trichotomy k s.x.toNat with hk | hk | hk
    · rw [if_neg (by omega), if_neg (by omega), if_neg (by omega)]
    · subst hk
      rw [if_neg (by omega), if_pos (by omega), if_pos (by omega)]
      simp
    · by_cases hin : k < s.x.toNat + 1 + cs.length
      · rw [if_pos (by omega), if_pos (by omega), show k - s.x.toNat = (k - (s.x.toNat + 1)) + 1 by omega]
        rfl
      · rw [if_neg (by omega), if_neg (by omega), if_neg (by omega)]

/-- The columns of a byte written at column x. -/
def byteColumns (x : Nat) (isMeta : Bool) (d : Symbol) : List Column :=
  [columnOf x (lo d) isMeta, columnOf (x + 1) (hi d) isMeta]

/-- The columns of a list of bytes from column x on. -/
def bytesColumns (isMeta : Bool) : Nat → List Symbol → List Column
  | _, [] => []
  | x, d :: ds => byteColumns x isMeta d ++ bytesColumns isMeta (x + 2) ds

@[simp] theorem bytesColumns_length (isMeta : Bool) (x : Nat) (ds : List Symbol) :
    (bytesColumns isMeta x ds).length = 2 * ds.length := by
  induction ds generalizing x with
  | nil => rfl
  | cons d ds ih => simp [bytesColumns, byteColumns, ih]; omega

theorem putByte_eq_putColumns (isMeta : Bool) (d : Symbol) (s : State) :
    putByte isMeta d s = putColumns (byteColumns s.x.toNat isMeta d) s := rfl

/-- A list of bytes is written as the list of its columns. -/
theorem putBytes_eq_putColumns (isMeta : Bool) (ds : List Symbol) {s : State}
    (h : s.x.toNat + 2 * ds.length < 128) :
    putBytes isMeta ds s = putColumns (bytesColumns isMeta s.x.toNat ds) s := by
  induction ds generalizing s with
  | nil => rfl
  | cons d ds ih =>
    simp only [List.length_cons] at h
    have moved : (putByte isMeta d s).x.toNat = s.x.toNat + 2 :=
      putColumns_x_toNat (byteColumns s.x.toNat isMeta d) (by simp [byteColumns]; omega)
    rw [putBytes, ih (by omega), moved, putByte_eq_putColumns, ← putColumns_append, bytesColumns]

/-- Column 2t of the bytes' columns is the low nibble of byte t, and column 2t+1 its high nibble. -/
theorem bytesColumns_getD (isMeta : Bool) (x : Nat) (ds : List Symbol) {t : Nat} (h : t < ds.length) :
    (bytesColumns isMeta x ds).getD (2 * t) 0#8 = columnOf (x + 2 * t) (lo (ds.getD t 0#8)) isMeta ∧
    (bytesColumns isMeta x ds).getD (2 * t + 1) 0#8 = columnOf (x + 2 * t + 1) (hi (ds.getD t 0#8)) isMeta := by
  induction ds generalizing x t with
  | nil => simp at h
  | cons d ds ih =>
    cases t with
    | zero => simp [bytesColumns, byteColumns]
    | succ t =>
      have := ih (x + 2) (t := t) (by simpa using h)
      simp only [bytesColumns, byteColumns, List.cons_append, List.nil_append, Nat.mul_add, Nat.mul_one,
        List.getD_cons_succ]
      simpa [Nat.add_assoc, Nat.add_comm, Nat.add_left_comm] using this

/-! ### Lengths of what the Reed-Solomon unit computes -/

@[simp] theorem multiplyByRoot_length (e : Symbol) (g : List Symbol) : (multiplyByRoot e g).length = g.length := by
  simp [multiplyByRoot]; omega

@[simp] theorem generator_length (n : Nat) : (generator n).length = n := by
  have fold : ∀ (l : List Nat) (g : List Symbol),
      (l.foldl (fun g i => multiplyByRoot (expTable i) g) g).length = g.length := by
    intro l
    induction l with
    | nil => intro g; rfl
    | cons i l ih => intro g; rw [List.foldl_cons, ih, multiplyByRoot_length]
  rw [generator, fold]
  simp [constantOne]

@[simp] theorem xorInto_length (p q : List Symbol) : (xorInto p q).length = p.length := by
  induction p generalizing q with
  | nil => cases q <;> rfl
  | cons a p ih => cases q with
    | nil => rfl
    | cons b q => simp [xorInto, ih]

@[simp] theorem divideOnce_length (g poly : List Symbol) : (divideOnce g poly).length = poly.length - 1 := by
  cases poly with
  | nil => rfl
  | cons c rest => by_cases h : c = 0#8 <;> simp [divideOnce, h]

@[simp] theorem divideTimes_length (g : List Symbol) (k : Nat) (poly : List Symbol) :
    (divideTimes g k poly).length = poly.length - k := by
  induction k generalizing poly with
  | zero => rfl
  | succ k ih => rw [divideTimes, ih, divideOnce_length]; omega

@[simp] theorem remainder_length (m g : List Symbol) : (remainder m g).length = g.length := by
  simp [remainder]

@[simp] theorem syndromes_length (c : List Symbol) (n : Nat) : (syndromes c n).length = n := by
  simp [syndromes]

/-! ### Field symbols -/

/-- A product with 0 on either side is 0 (spec/40_gf_arithmetic.md R123). -/
@[simp] theorem gfMul_zero_left (b : Symbol) : gfMul 0#8 b = 0#8 := by simp [gfMul]

@[simp] theorem gfMul_zero_right (a : Symbol) : gfMul a 0#8 = 0#8 := by simp [gfMul]

/-- A product of two symbols that are not 0 is read from EXP (R123). -/
theorem gfMul_of_ne_zero {a b : Symbol} (ha : a ≠ 0#8) (hb : b ≠ 0#8) :
    gfMul a b = expTable ((logTable a).toNat + (logTable b).toNat) := by
  simp [gfMul, ha, hb]

end Sys2Proof.Machine
end

