-- ==== Sys2Proof/Laws/Bus.lean ====
section
/-! SUPPORT. The register map, the outcomes of one event, and the fields of an encoded word. -/

namespace Sys2Proof.Machine

/-! ### The register map (spec/20_memory.md R61) -/

theorem arrayIndex_some {base n addr : Nat} {i : Fin n} (h : arrayIndex base n addr = some i) :
    base ≤ addr ∧ i.val = (addr - base) / 4 := by
  unfold arrayIndex at h
  split at h
  · rename_i hh
    cases h
    exact ⟨hh.1, rfl⟩
  · cases h

/-- Every register is reached at its own offset. -/
theorem regAt_regOffset (r : Reg) : regAt (regOffset r) = some r := by
  cases r
  case msg t => revert t; decide
  case gen j => revert j; decide
  case ecc j => revert j; decide
  case syn i => revert i; decide
  case gridCol c => revert c; decide +kernel
  all_goals rfl

theorem regOffset_aligned (r : Reg) : regOffset r % 4 = 0 := by
  cases r <;> simp [regOffset, Nat.add_mod]

/-- An aligned 32-bit access at a register's offset reaches that register. -/
theorem accessedReg_regOffset (r : Reg) : accessedReg (regOffset r) 4 = some r := by
  simp [accessedReg, regOffset_aligned, regAt_regOffset]

/-! ### One event -/

/-- An event at an offset that reaches no register is a bus error; one that reaches a register is its read or write. -/
theorem serveEvent_cases (e : BusEvent) (s : State) :
    (∃ addr size r, e = .read addr size ∧ accessedReg addr size = some r ∧
      serveEvent e s = .next { s with response := .data (readReg r s) }) ∨
    (∃ addr size v r, e = .write addr size v ∧ accessedReg addr size = some r ∧
      serveEvent e s = writeReg r v { s with response := .written }) ∨
    (e = .reset ∧ serveEvent e s = .next { State.reset with pending := s.pending }) ∨
    serveEvent e s = .fault .busError := by
  cases e with
  | read addr size =>
    cases h : accessedReg addr size with
    | none => exact .inr (.inr (.inr (by simp [serveEvent, h])))
    | some r => exact .inl ⟨addr, size, r, rfl, h, by simp [serveEvent, h]⟩
  | write addr size v =>
    cases h : accessedReg addr size with
    | none => exact .inr (.inr (.inr (by simp [serveEvent, h])))
    | some r => exact .inr (.inl ⟨addr, size, v, r, rfl, h, by simp [serveEvent, h]⟩)
  | reset => exact .inr (.inr (.inl ⟨rfl, rfl⟩))

/-- A step waits, or serves the next pending event. -/
theorem step_cases (s : State) :
    (s.pending = [] ∧ step s = .next s) ∨
    (∃ e rest, s.pending = e :: rest ∧ step s = serveEvent e { s with pending := rest }) := by
  cases h : s.pending with
  | nil => exact .inl ⟨rfl, by simp [step, h]⟩
  | cons e rest => exact .inr ⟨e, rest, rfl, by simp [step, h]⟩

/-- A checked write either refuses the value, changing only STATUS, or makes the write (R65). -/
theorem checkedWrite_cases (limit : Nat) (c : ErrCode) (v : Word) (put : State → State) (s : State) :
    (v.toNat > limit ∧ checkedWrite limit c v put s = raiseError c s) ∨
    (v.toNat ≤ limit ∧ checkedWrite limit c v put s = succeed (put s)) := by
  by_cases h : v.toNat > limit
  · exact .inl ⟨h, by simp [checkedWrite, h]⟩
  · exact .inr ⟨by omega, by simp [checkedWrite, h]⟩

/-! ### Fields of a word -/

/-- The check of reserved bits either refuses the word or gives the instruction (spec/30_encoding.md R93). -/
theorem checked_eq_ok {f : Format} {w : Word} {i j : Instr} (h : checked f w i = .ok j) :
    i = j ∧ w &&& reservedMask f = 0#32 := by
  unfold checked at h
  split at h
  · cases h
  · rename_i hm
    cases h
    exact ⟨rfl, by simpa using hm⟩

@[simp] theorem opField_wordN (op : BitVec 8) : opField (wordN op) = op := by
  apply BitVec.eq_of_getElem_eq
  intro i hi
  simp only [opField, wordN, BitVec.getElem_extractLsb', BitVec.getLsbD_append]
  interval_cases i <;> simp

/-- An encoded word of format N has no reserved bit set. -/
@[simp] theorem reserved_wordN (op : BitVec 8) : wordN op &&& reservedMask .n = 0#32 := by
  apply BitVec.eq_of_getElem_eq
  intro i hi
  simp only [reservedMask, wordN, BitVec.getElem_and, BitVec.getElem_append]
  interval_cases i <;> simp

@[simp] theorem opField_wordA (op : BitVec 8) (a : BitVec 8) : opField (wordA op a) = op := by
  apply BitVec.eq_of_getElem_eq
  intro i hi
  simp only [opField, wordA, BitVec.getElem_extractLsb', BitVec.getLsbD_append]
  interval_cases i <;> simp

@[simp] theorem aField_wordA (op : BitVec 8) (a : BitVec 8) : aField (wordA op a) = a := by
  apply BitVec.eq_of_getElem_eq
  intro i hi
  simp only [aField, wordA, BitVec.getElem_extractLsb', BitVec.getLsbD_append]
  interval_cases i <;> simp

/-- An encoded word of format A has no reserved bit set. -/
@[simp] theorem reserved_wordA (op : BitVec 8) (a : BitVec 8) : wordA op a &&& reservedMask .a = 0#32 := by
  apply BitVec.eq_of_getElem_eq
  intro i hi
  simp only [reservedMask, wordA, BitVec.getElem_and, BitVec.getElem_append]
  interval_cases i <;> simp

@[simp] theorem opField_wordAB (op : BitVec 8) (a b : BitVec 8) : opField (wordAB op a b) = op := by
  apply BitVec.eq_of_getElem_eq
  intro i hi
  simp only [opField, wordAB, BitVec.getElem_extractLsb', BitVec.getLsbD_append]
  interval_cases i <;> simp

@[simp] theorem aField_wordAB (op : BitVec 8) (a b : BitVec 8) : aField (wordAB op a b) = a := by
  apply BitVec.eq_of_getElem_eq
  intro i hi
  simp only [aField, wordAB, BitVec.getElem_extractLsb', BitVec.getLsbD_append]
  interval_cases i <;> simp

@[simp] theorem bField_wordAB (op : BitVec 8) (a b : BitVec 8) : bField (wordAB op a b) = b := by
  apply BitVec.eq_of_getElem_eq
  intro i hi
  simp only [bField, wordAB, BitVec.getElem_extractLsb', BitVec.getLsbD_append]
  interval_cases i <;> simp

/-- An encoded word of format AB has no reserved bit set. -/
@[simp] theorem reserved_wordAB (op : BitVec 8) (a b : BitVec 8) : wordAB op a b &&& reservedMask .ab = 0#32 := by
  apply BitVec.eq_of_getElem_eq
  intro i hi
  simp only [reservedMask, wordAB, BitVec.getElem_and, BitVec.getElem_append]
  interval_cases i <;> simp

@[simp] theorem opField_wordI9 (op : BitVec 8) (n : BitVec 9) : opField (wordI9 op n) = op := by
  apply BitVec.eq_of_getElem_eq
  intro i hi
  simp only [opField, wordI9, BitVec.getElem_extractLsb', BitVec.getLsbD_append]
  interval_cases i <;> simp

@[simp] theorem iField_wordI9 (op : BitVec 8) (n : BitVec 9) : iField (wordI9 op n) = n := by
  apply BitVec.eq_of_getElem_eq
  intro i hi
  simp only [iField, wordI9, BitVec.getElem_extractLsb', BitVec.getLsbD_append]
  interval_cases i <;> simp

/-- An encoded word of format I9 has no reserved bit set. -/
@[simp] theorem reserved_wordI9 (op : BitVec 8) (n : BitVec 9) : wordI9 op n &&& reservedMask .i9 = 0#32 := by
  apply BitVec.eq_of_getElem_eq
  intro i hi
  simp only [reservedMask, wordI9, BitVec.getElem_and, BitVec.getElem_append]
  interval_cases i <;> simp

@[simp] theorem opField_wordI16 (op : BitVec 8) (p : BitVec 16) : opField (wordI16 op p) = op := by
  apply BitVec.eq_of_getElem_eq
  intro i hi
  simp only [opField, wordI16, BitVec.getElem_extractLsb', BitVec.getLsbD_append]
  interval_cases i <;> simp

@[simp] theorem pField_wordI16 (op : BitVec 8) (p : BitVec 16) : pField (wordI16 op p) = p := by
  apply BitVec.eq_of_getElem_eq
  intro i hi
  simp only [pField, wordI16, BitVec.getElem_extractLsb', BitVec.getLsbD_append]
  interval_cases i <;> simp

/-- An encoded word of format I16 has no reserved bit set. -/
@[simp] theorem reserved_wordI16 (op : BitVec 8) (p : BitVec 16) : wordI16 op p &&& reservedMask .i16 = 0#32 := by
  apply BitVec.eq_of_getElem_eq
  intro i hi
  simp only [reservedMask, wordI16, BitVec.getElem_and, BitVec.getElem_append]
  interval_cases i <;> simp

@[simp] theorem opField_wordCol (op : BitVec 8) (v : BitVec 4) (m : Bool) : opField (wordCol op v m) = op := by
  apply BitVec.eq_of_getElem_eq
  intro i hi
  simp only [opField, wordCol, BitVec.getElem_extractLsb', BitVec.getLsbD_append]
  interval_cases i <;> simp

@[simp] theorem vField_wordCol (op : BitVec 8) (v : BitVec 4) (m : Bool) : vField (wordCol op v m) = v := by
  apply BitVec.eq_of_getElem_eq
  intro i hi
  simp only [vField, wordCol, BitVec.getElem_extractLsb', BitVec.getLsbD_append]
  interval_cases i <;> simp

@[simp] theorem mField_wordCol (op : BitVec 8) (v : BitVec 4) (m : Bool) : mField (wordCol op v m) = m := by
  simp only [mField, wordCol, BitVec.getLsbD_append]
  cases m <;> simp

/-- An encoded word of format Col has no reserved bit set. -/
@[simp] theorem reserved_wordCol (op : BitVec 8) (v : BitVec 4) (m : Bool) : wordCol op v m &&& reservedMask .col = 0#32 := by
  apply BitVec.eq_of_getElem_eq
  intro i hi
  simp only [reservedMask, wordCol, BitVec.getElem_and, BitVec.getElem_append]
  interval_cases i <;> simp

@[simp] theorem opField_wordByte (op : BitVec 8) (d : BitVec 8) (m : Bool) : opField (wordByte op d m) = op := by
  apply BitVec.eq_of_getElem_eq
  intro i hi
  simp only [opField, wordByte, BitVec.getElem_extractLsb', BitVec.getLsbD_append]
  interval_cases i <;> simp

@[simp] theorem dField_wordByte (op : BitVec 8) (d : BitVec 8) (m : Bool) : dField (wordByte op d m) = d := by
  apply BitVec.eq_of_getElem_eq
  intro i hi
  simp only [dField, wordByte, BitVec.getElem_extractLsb', BitVec.getLsbD_append]
  interval_cases i <;> simp

@[simp] theorem mField_wordByte (op : BitVec 8) (d : BitVec 8) (m : Bool) : mField (wordByte op d m) = m := by
  simp only [mField, wordByte, BitVec.getLsbD_append]
  cases m <;> simp

/-- An encoded word of format Byte has no reserved bit set. -/
@[simp] theorem reserved_wordByte (op : BitVec 8) (d : BitVec 8) (m : Bool) : wordByte op d m &&& reservedMask .byte = 0#32 := by
  apply BitVec.eq_of_getElem_eq
  intro i hi
  simp only [reservedMask, wordByte, BitVec.getElem_and, BitVec.getElem_append]
  interval_cases i <;> simp

end Sys2Proof.Machine
end

