-- ==== Sys2Proof/Laws/PerInstr.lean ====
section
/-! SUPPORT. EncodedWordMatchesRow: the word of every command matches its row of spec/opcode_table.json, whatever its
operands (spec/30_encoding.md R93: "each row's `mask` covers the opcode byte and the reserved bits of its format"). One
lemma per constructor. -/

namespace Sys2Proof.Laws.EncodedWordMatchesRow

open Sys2Proof.Machine

/-- The encoded word, under the row's mask, is the row's match. -/
def Statement (i : Instr) : Prop := encode i &&& (opcodeRow i).mask = (opcodeRow i).value

theorem wordA_matches (op a : BitVec 8) : wordA op a &&& 0xFFFF00FF#32 = wordN op := by
  apply BitVec.eq_of_getLsbD_eq
  intro i hi
  simp only [wordA, wordN, BitVec.getLsbD_and, BitVec.getLsbD_append]
  interval_cases i <;> simp

theorem nop : Statement .nop := by unfold Statement; decide
theorem gfMul (a b : Symbol) : Statement (.gfMul a b) := by
  apply BitVec.eq_of_getElem_eq
  intro i hi
  simp only [opcodeRow, encode, wordAB, BitVec.getElem_and, BitVec.getElem_append]
  interval_cases i <;> simp
theorem gfExp (n : Nat) : Statement (.gfExp n) := by
  apply BitVec.eq_of_getElem_eq
  intro i hi
  simp only [opcodeRow, encode, wordI9, BitVec.getElem_and, BitVec.getElem_append]
  interval_cases i <;> simp
theorem gfLog (a : Symbol) : Statement (.gfLog a) := wordA_matches _ _
theorem eccCount (len : Nat) : Statement (.eccCount len) := wordA_matches _ _
theorem rsGen (n : Nat) : Statement (.rsGen n) := wordA_matches _ _
theorem rsRem : Statement .rsRem := by unfold Statement; decide
theorem rsEncode (n : Nat) : Statement (.rsEncode n) := wordA_matches _ _
theorem rsSynd (n : Nat) : Statement (.rsSynd n) := wordA_matches _ _
theorem gridInit (w : Nat) : Statement (.gridInit w) := wordA_matches _ _
theorem colWrite (v : BitVec 4) (isMeta : Bool) : Statement (.colWrite v isMeta) := by
  apply BitVec.eq_of_getElem_eq
  intro i hi
  simp only [opcodeRow, encode, wordCol, BitVec.getElem_and, BitVec.getElem_append]
  interval_cases i <;> simp
theorem byteWrite (d : Symbol) (isMeta : Bool) : Statement (.byteWrite d isMeta) := by
  apply BitVec.eq_of_getElem_eq
  intro i hi
  simp only [opcodeRow, encode, wordByte, BitVec.getElem_and, BitVec.getElem_append]
  interval_cases i <;> simp
theorem finderL : Statement .finderL := by unfold Statement; decide
theorem skip (k : Nat) : Statement (.skip k) := wordA_matches _ _
theorem finderR : Statement .finderR := by unfold Statement; decide
theorem assemble : Statement .assemble := by unfold Statement; decide
theorem plan (len : Nat) : Statement (.plan len) := by
  apply BitVec.eq_of_getElem_eq
  intro i hi
  simp only [opcodeRow, encode, wordI16, BitVec.getElem_and, BitVec.getElem_append]
  interval_cases i <;> simp
theorem selChunk (k : Nat) : Statement (.selChunk k) := wordA_matches _ _

end Sys2Proof.Laws.EncodedWordMatchesRow
end

