-- ==== Sys2Proof/Tests/Slice0.lean ====
section
/-! SUPPORT. The model's own tests. Expected results come from spec/95_test_vectors.md and from the rules' worked
examples; the decode words are written out from spec/30_encoding.md. Witnesses.lean shows that the
hypotheses of each statement are met. -/

namespace Sys2Proof.Tests

open Sys2Proof Sys2Proof.Machine

set_option Elab.async false

/-! ### WellFormed: an ill-formed term for each check, and the largest well-formed one -/

theorem test_gfExp_index_9_bits : (Instr.gfExp 512).wellFormed = false ∧ (Instr.gfExp 511).wellFormed = true := by decide
theorem test_eccCount_8_bits : (Instr.eccCount 256).wellFormed = false ∧ (Instr.eccCount 255).wellFormed = true := by
  decide
theorem test_rsGen_8_bits : (Instr.rsGen 256).wellFormed = false ∧ (Instr.rsGen 255).wellFormed = true := by decide
theorem test_rsEncode_8_bits : (Instr.rsEncode 256).wellFormed = false ∧ (Instr.rsEncode 255).wellFormed = true := by
  decide
theorem test_rsSynd_8_bits : (Instr.rsSynd 256).wellFormed = false ∧ (Instr.rsSynd 255).wellFormed = true := by decide
theorem test_gridInit_8_bits : (Instr.gridInit 256).wellFormed = false ∧ (Instr.gridInit 255).wellFormed = true := by
  decide
theorem test_skip_8_bits : (Instr.skip 256).wellFormed = false ∧ (Instr.skip 255).wellFormed = true := by decide
theorem test_plan_16_bits : (Instr.plan 65536).wellFormed = false ∧ (Instr.plan 65535).wellFormed = true := by decide
theorem test_selChunk_8_bits : (Instr.selChunk 256).wellFormed = false ∧ (Instr.selChunk 255).wellFormed = true := by
  decide

/-! ### Decode: one word per constructor, and the refusals (spec/95 sections 2.1 to 2.6 and section 3) -/

theorem test_decode_nop : decode 0x00000000#32 = .ok .nop := by decide
theorem test_decode_gfMul : decode 0x00CA5301#32 = .ok (.gfMul 0x53#8 0xCA#8) := by decide
theorem test_decode_gfExp : decode 0x0001FF02#32 = .ok (.gfExp 511) := by decide
theorem test_decode_gfLog : decode 0x00008E03#32 = .ok (.gfLog 0x8E#8) := by decide
theorem test_decode_eccCount : decode 0x00002810#32 = .ok (.eccCount 40) := by decide
theorem test_decode_rsGen : decode 0x00000411#32 = .ok (.rsGen 4) := by decide
theorem test_decode_rsRem : decode 0x00000012#32 = .ok .rsRem := by decide
theorem test_decode_rsEncode : decode 0x00000413#32 = .ok (.rsEncode 4) := by decide
theorem test_decode_rsSynd : decode 0x00000414#32 = .ok (.rsSynd 4) := by decide
theorem test_decode_gridInit : decode 0x00006F20#32 = .ok (.gridInit 111) := by decide
theorem test_decode_colWrite : decode 0x00010F21#32 = .ok (.colWrite 0xF#4 true) := by decide
theorem test_decode_byteWrite : decode 0x0000AB22#32 = .ok (.byteWrite 0xAB#8 false) := by decide
theorem test_decode_finderL : decode 0x00000023#32 = .ok .finderL := by decide
theorem test_decode_skip : decode 0x00000524#32 = .ok (.skip 5) := by decide
theorem test_decode_finderR : decode 0x00000025#32 = .ok .finderR := by decide
theorem test_decode_assemble : decode 0x00000026#32 = .ok .assemble := by decide
theorem test_decode_plan : decode 0x00005530#32 = .ok (.plan 85) := by decide
theorem test_decode_selChunk : decode 0x00000231#32 = .ok (.selChunk 2) := by decide
theorem test_decode_reserved :
    [0x01000001#32, 0x00020002#32, 0x00010003#32, 0x00001021#32, 0x80000000#32, 0x00000100#32, 0x00000112#32].all
      (fun w => decide (decode w = .error .reservedBits)) = true := by decide
theorem test_decode_illegal :
    [0x000000FF#32, 0x00000004#32, 0x00000015#32, 0x00000027#32, 0x00000032#32].all
      (fun w => decide (decode w = .error .illegalOpcode)) = true := by decide
/-- The example of R96. -/
theorem test_encode_meta_byte : encode (.byteWrite 0x01#8 true) = 0x00010122#32 := by decide
theorem test_decodeTableWord : decodeTableWord 32 0x00005530 = some (.plan 85) := by decide
theorem test_disassemble : disassemble 0x00010122#32 = .command "BYTE_WRITE" [.num 1, .metaFlag] ∧
    assembleLine (.command "PLAN" [.num 85]) = some 0x00005530#32 ∧ disassemble 0xFF#32 = .dotWord 0xFF#32 := by decide

/-! ### States for one step -/

/-- A property of the next state; false on a fault or a refusal. -/
def nextIs (o : Outcome) (p : State → Bool) : Bool :=
  match o with
  | .next t => p t
  | .fault _ => false
  | .refused _ => false

/-- MSG = [d], MSG_LEN = 1, SEQ_IDX = idx, SEQ_TOTAL = total, everything else as at reset. -/
def oneSymbol (d idx total : Symbol) : State :=
  { State.reset with msg := State.reset.msg.setIfInBounds 0 d, msgLen := 1#6, seqIdx := idx, seqTotal := total }

/-- A cleared grid of w columns with the cursor at x and SEQ_IDX = 1, SEQ_TOTAL = 3. -/
def gridAt (w x : Nat) : State :=
  { State.reset with gridW := BitVec.ofNat 7 w, x := BitVec.ofNat 7 x, seqIdx := 1#8, seqTotal := 3#8 }

/-- [0x41] with the parity of RS_ENCODE 4 (spec/95 section 2.2.3), and its generator. -/
def encodedA : State :=
  { oneSymbol 0x41#8 0#8 1#8 with
    gen := pad 10 [0x0F#8, 0x36#8, 0x78#8, 0x40#8], genN := 4#4,
    ecc := pad 10 [0xE8#8, 0x37#8, 0x13#8, 0x8D#8] }

/-- The state after PLAN 85. -/
def planned : State := { State.reset with payLen := 85#14, seqTotal := 3#8 }

/-! ### Meanings -/

theorem test_nop_clears_err :
    nextIs (exec .nop (raiseError .noGenerator .reset)) (fun t => statusWord t = 0x100#32) = true := by decide
theorem test_gfMul_not_aes :
    nextIs (exec (.gfMul 0x53#8 0xCA#8) .reset) (fun t => t.result = 0x8F#16) = true := by decide
theorem test_gfMul_reduces : [gfMul 0x02#8 0x80#8, gfMul 0xFF#8 0xFF#8, gfMul 0x57#8 0x83#8, gfMul 0x57#8 0x00#8] =
    [0x1D#8, 0xE2#8, 0x31#8, 0x00#8] := by decide
theorem test_gfExp_last : nextIs (exec (.gfExp 511) .reset) (fun t => t.result = 2#16) = true := by decide
theorem test_gfExp_508 : nextIs (exec (.gfExp 508) .reset) (fun t => t.result = 0x47#16) = true := by decide
theorem test_gfLog_8E : nextIs (exec (.gfLog 0x8E#8) .reset) (fun t => t.result = 254#16) = true := by decide
theorem test_gfLog_zero : nextIs (exec (.gfLog 0#8) .reset) (fun t => statusWord t = 0x103#32) = true := by decide
theorem test_eccCount_boundaries :
    [0, 1, 4, 5, 16, 17, 20, 21, 36, 37, 40, 255].map eccCount = [4, 4, 4, 4, 4, 5, 5, 6, 9, 10, 10, 64] := by decide
theorem test_rsGen_10 :
    nextIs (exec (.rsGen 10) .reset) (fun t => t.gen.toList =
      [0xD8#8, 0xC2#8, 0x9F#8, 0x6F#8, 0xC7#8, 0x5E#8, 0x5F#8, 0x71#8, 0x9D#8, 0xC1#8]) = true := by decide +kernel
theorem test_rsGen_11 : nextIs (exec (.rsGen 11) .reset) (fun t => statusWord t = 0x104#32) = true := by decide
theorem test_rsRem_A :
    nextIs (exec .rsRem { encodedA with ecc := State.reset.ecc }) (fun t => t.ecc.toList.take 5 =
      [0xE8#8, 0x37#8, 0x13#8, 0x8D#8, 0x00#8]) = true := by decide +kernel
theorem test_rsRem_generator_before_message :
    nextIs (exec .rsRem .reset) (fun t => statusWord t = 0x105#32) = true := by decide
theorem test_rsEncode_hello : remainder [0x48#8, 0x65#8, 0x6C#8, 0x6C#8, 0x6F#8] (generator 4) =
    [0x92#8, 0x98#8, 0xCB#8, 0x83#8] := by decide +kernel
theorem test_rsEncode_two_symbols : remainder [0x41#8] (generator 2) = [0xC3#8, 0x82#8] := by decide
theorem test_rsSynd_changed_symbol :
    nextIs (exec (.rsSynd 4) { encodedA with msg := State.reset.msg.setIfInBounds 0 0x40#8 })
      (fun t => decide (t.syn.toList.take 5 = [0x01#8, 0x10#8, 0x1D#8, 0xCD#8, 0x00#8]) && t.result == 0#16) = true := by
  decide +kernel
theorem test_rsSynd_count_before_message :
    nextIs (exec (.rsSynd 0) .reset) (fun t => statusWord t = 0x104#32) = true := by decide
theorem test_gridInit_111 : nextIs (exec (.gridInit 111) .reset) (fun t => t.gridW = 111#7) = true := by decide
theorem test_gridInit_112 : nextIs (exec (.gridInit 112) .reset) (fun t => statusWord t = 0x107#32) = true := by decide
theorem test_colWrite_masked :
    nextIs (exec (.colWrite 0xA#4 false) (gridAt 2 1)) (fun t => gridColumn t 1 == 0x9E#8 && t.x == 2#7) = true := by
  decide
theorem test_colWrite_meta :
    nextIs (exec (.colWrite 0xF#4 true) (gridAt 2 0)) (fun t => gridColumn t 0 = 0x3F#8) = true := by decide
theorem test_byteWrite_data :
    nextIs (exec (.byteWrite 0x41#8 false) (gridAt 21 8)) (fun t => gridColumn t 8 == 0x77#8 && gridColumn t 9 == 0x82#8)
      = true := by decide +kernel
theorem test_byteWrite_no_half_byte :
    nextIs (exec (.byteWrite 0xAB#8 false) (gridAt 3 2)) (fun t => gridColumn t 2 == 0#8 && t.x == 2#7) = true := by decide
theorem test_finderL_columns :
    nextIs (exec .finderL (gridAt 21 0)) (fun t => gridColumn t 2 == 0xE7#8 && gridColumn t 3 == 0#8 && t.x == 3#7) = true :=
  by decide +kernel
theorem test_finderL_overflow : nextIs (exec .finderL (gridAt 2 0)) (fun t => statusWord t = 0x108#32) = true := by decide
theorem test_skip_zero_at_the_end : nextIs (exec (.skip 0) (gridAt 5 5)) (fun t => t.err = .ok) = true := by decide
theorem test_skip_one_at_the_end :
    nextIs (exec (.skip 1) (gridAt 5 5)) (fun t => t.err = .cursorOverflow) = true := by decide
theorem test_finderR_even :
    nextIs (exec .finderR (gridAt 21 19)) (fun t => gridColumn t 19 == 0xDB#8 && gridColumn t 20 == 0xC3#8) = true := by
  decide +kernel
theorem test_finderR_sequence_before_cursor :
    nextIs (exec .finderR .reset) (fun t => statusWord t = 0x109#32) = true := by decide
/-- The line of program P2. -/
theorem test_assemble_A :
    nextIs (exec .assemble (oneSymbol 0x41#8 0#8 1#8)) (fun t => t.grid.toList.take 22 =
      [0xE7#8, 0xE7#8, 0xE7#8, 0x00#8, 0x23#8, 0xA0#8, 0x23#8, 0xA0#8, 0x77#8, 0x82#8, 0x65#8, 0x96#8, 0x7B#8, 0x8C#8,
        0x73#8, 0x88#8, 0x6F#8, 0x9A#8, 0x00#8, 0xDB#8, 0xDB#8, 0x00#8]) = true := by decide +kernel
/-- Sequence ids at the top of the range (spec/95 section 2.5). -/
theorem test_assemble_id_255 :
    nextIs (exec .assemble (oneSymbol 0x00#8 254#8 255#8)) (fun t => (t.grid.toList.drop 4).take 6 =
      [0x3F#8, 0xBE#8, 0x3F#8, 0xBE#8, 0x75#8, 0x8A#8]) = true := by decide +kernel
theorem test_plan_85 : nextIs (exec (.plan 85) .reset) (fun t => t.seqTotal == 3#8 && t.result == 3#16) = true := by decide
theorem test_plan_10201 : nextIs (exec (.plan 10201) .reset) (fun t => statusWord t = 0x10A#32) = true := by decide
theorem test_selChunk_last :
    nextIs (exec (.selChunk 2) planned) (fun t => t.msgLen == 5#6 && t.result == 80#16 && t.seqIdx == 2#8) = true := by decide
theorem test_selChunk_beyond :
    nextIs (exec (.selChunk 3) planned) (fun t => t.err = .badSequence) = true := by decide

/-! ### The window, the step and a session (spec/95 section 2.6, programs P1 and P6) -/

theorem test_map_boundaries :
    [0x24, 0x28, 0xFC, 0x100, 0x19C, 0x1A0, 0x1FC, 0x200, 0x224, 0x228, 0x23C, 0x240, 0x264, 0x268, 0x27C, 0x280, 0x2A4,
      0x2A8, 0x3FC, 0x400, 0x5B8, 0x5BC, 0x1000].map (fun a => (accessedReg a 4).isSome) =
    [true, false, false, true, true, false, false, true, true, false, false, true, true, false, false, true, true,
      false, false, true, true, false, false] := by decide
theorem test_window_register_of_offset :
    [0x00C, 0x118, 0x244, 0x5B8].map (fun a => accessedReg a 4) =
      [some .cursor, some (.msg 6), some (.ecc 1), some (.gridCol 110)] := by decide
theorem test_symbol_300_refused :
    nextIs (writeReg (.msg 0) 0x12C#32 .reset) (fun t => statusWord t == 0x10B#32 && entry t.msg 0 == 0#8) = true := by decide
theorem test_length_40_and_41 :
    nextIs (writeReg .msgLen 40#32 .reset) (fun t => t.msgLen == 40#6) = true ∧
    nextIs (writeReg .msgLen 41#32 .reset) (fun t => statusWord t == 0x10C#32) = true := by decide
theorem test_value_255_and_256 :
    nextIs (writeReg .seqTotal 255#32 .reset) (fun t => t.seqTotal == 255#8) = true ∧
    nextIs (writeReg .seqTotal 256#32 .reset) (fun t => statusWord t == 0x10D#32) = true := by decide
theorem test_gen_is_read_only :
    nextIs (writeReg (.gen 0) 1#32 .reset) (fun t => statusWord t = 0x10E#32) = true := by decide
theorem test_sticky_cleared_err_kept :
    nextIs (writeReg .status 0x100#32 (raiseError .logOfZero .reset)) (fun t => statusWord t = 0x003#32) = true := by decide
theorem test_sticky_kept :
    nextIs (writeReg .status 0x0FF#32 (raiseError .logOfZero .reset)) (fun t => statusWord t = 0x103#32) = true := by decide
theorem test_step_runs_the_fetched_word :
    nextIs (step (State.reset.withFetchWord 32 0x00CA5301)) (fun t => t.result = 0x8F#16) = true := by decide
theorem test_step_stops_at_busError : StepsWithoutBusError State.reset ∧
    ¬ StepsWithoutBusError { State.reset with pending := [.read 0x1000 4] } := by
  constructor
  · intro h; cases h
  · intro h; exact h rfl
/-- Steps 7 to 10 of P6: the session goes on after two bus errors. -/
theorem test_session_goes_on_after_busError :
    (session [commandWrite 0xFF#32, .read 0x1000 4, .write 0x002 4 0x100#32, wr .status 0x100#32, rd .status] .reset).1 =
      [.written, .busError, .busError, .written, .data 0x001#32] := by decide
/-- Operands out of range expand, and the block refuses the write (R98, R65). -/
theorem test_pseudo_instructions_out_of_range :
    (session (loadMsg [300#32] ++ [rd .msgLen, rd .status]) .reset).1 =
      [.written, .written, .data 1#32, .data 0x100#32] ∧
    (session (setSeq 0#32 256#32 ++ [rd .seqTotal, rd .status]) .reset).1 =
      [.written, .written, .data 0#32, .data 0x100#32] := by decide
theorem test_reset_event_keeps_what_is_pending :
    nextIs (step { encodedA with pending := [.reset, rd .genN] }) (fun t => t.genN == 0#4 && t.pending == [rd .genN]) =
      true := by decide

end Sys2Proof.Tests
end

