-- ==== Sys2Proof/Tests/Witnesses.lean ====
section
/-! SUPPORT. One witness_ theorem for each statement that has hypotheses: a concrete state and operands that meet all of
them together, at the boundaries where the statement has several clauses. -/

namespace Sys2Proof.Tests

open Sys2Proof Sys2Proof.Machine

set_option Elab.async false

theorem witness_DecodeReadsBackEveryEncodedCommand : (Instr.plan 65535).wellFormed = true := by decide
theorem witness_EveryDecodedWordIsItsEncoding : decode 0x0001FF02#32 = .ok (.gfExp 511) := by decide
theorem witness_IllegalAndReservedWordsOnlyRaiseTheirError :
    decode 0x00000012#32 = .ok .rsRem ∧ 0x00000012#32 &&& 0x80000000#32 = 0#32 ∧
    0x80000000#32 &&& (opcodeRow .rsRem).mask ≠ 0#32 ∧
    opField (0x00000012#32 ||| 0x80000000#32) = opField 0x00000012#32 := by decide
theorem witness_StepRunsTheDecodedCommand :
    (State.reset.withFetchWord 32 0x2810).pending = [commandWrite 0x2810#32] ∧ decode 0x2810#32 = .ok (.eccCount 40) := by
  decide
/-- One state for each clause about an event: a write and a read at the map's last offsets, an access just outside the
map, and a reset. -/
theorem witness_StepRunsTheDecodedCommand_events :
    ({ State.reset with pending := [.write 0x264 4 255#32] } : State).pending = [.write (regOffset (.ecc 9)) 4 255#32] ∧
    ({ State.reset with pending := [.read 0x5B8 4] } : State).pending = [.read (regOffset (.gridCol 110)) 4] ∧
    ({ State.reset with pending := [.read 0x5BC 4] } : State).pending = [.read 0x5BC 4] ∧
    ¬ (4 = 4 ∧ 0x5BC % 4 = 0 ∧ mappedOffset 0x5BC = true) ∧
    ({ State.reset with pending := [.reset] } : State).pending = [.reset] := by decide
/-- A full symbol as operand A and as operand B, and the largest 9-bit and 16-bit operands. -/
theorem witness_EncodedWordHasItsFieldsInPlace :
    (Instr.gfMul 0xFF#8 0xFF#8).wellFormed = true ∧ (Instr.gfExp 511).wellFormed = true ∧
    (Instr.plan 65535).wellFormed = true ∧ (Instr.colWrite 0xF#4 true).wellFormed = true := by decide
theorem witness_StepRunsTheDecodedCommand_illegal :
    (State.reset.withFetchWord 32 0xFF).pending = [commandWrite 0xFF#32] ∧ decode 0xFF#32 = .error .illegalOpcode := by
  decide
theorem witness_StepWithNothingPendingChangesNothing : State.reset.pending = [] := by decide
theorem witness_GfExpPutsThePowerOfAlphaInResult : (511 : Nat) < 512 := by decide
theorem witness_GfLogFindsTheExponent : (0x01#8 : Symbol) ≠ 0#8 ∧ (0xFF#8 : Symbol) ≠ 0#8 := by decide
theorem witness_EccCount_result : (255 : Nat) < 256 := by decide
theorem witness_EveryCodewordHasZeroSyndromes :
    1 ≤ (List.replicate 40 0xFF#8).length ∧ (List.replicate 40 0xFF#8).length ≤ 40 ∧ 1 ≤ 10 ∧ 10 ≤ 10 ∧ 9 < 10 := by decide
theorem witness_RsRemMakesACodeword :
    encodedA.genN ≠ 0#4 ∧ encodedA.msgLen ≠ 0#6 ∧ GeneratorInv encodedA := by decide +kernel
/-- Also the hypotheses of the statements about RS_SYND and RS_SYND after RS_ENCODE. -/
theorem witness_RsEncodeMakesACodeword : 1 ≤ 10 ∧ 10 ≤ 10 ∧ (oneSymbol 0x41#8 0#8 1#8).msgLen ≠ 0#6 := by decide
theorem witness_RsSyndEvaluatesTheCodeword : 1 ≤ 1 ∧ 1 ≤ 10 ∧ encodedA.msgLen ≠ 0#6 ∧
    (∀ i < 4, syndrome (message encodedA ++ parity 4 encodedA) i = 0#8) ∧
    syndrome ([0x40#8] ++ parity 4 encodedA) 0 ≠ 0#8 := by decide +kernel
theorem witness_ChunksAreThePayload : 0 < chunkCount 41 ∧ 0 + 1 < chunkCount 41 ∧ 1 + 1 = chunkCount 41 := by decide
theorem witness_PlanCountsTheChunks : 10200 ≤ 10200 ∧ 10200 < 10201 := by decide
theorem witness_SelChunkSelectsOneChunk :
    2 < 256 ∧ 40 * 2 < planned.payLen.toNat ∧ planned.payLen.toNat ≤ 40 * 3 ∧
    ({ planned with payLen := 80#14 } : State).payLen.toNat ≤ 40 * 2 := by decide
theorem witness_ColWriteWritesTheColumnAtTheCursor :
    (gridAt 111 110).x.toNat + 1 ≤ (gridAt 111 110).gridW.toNat ∧ (gridAt 111 110).gridW.toNat ≤ 111 := by decide
theorem witness_ByteWriteWritesLowThenHighNibble :
    (gridAt 111 109).x.toNat + 2 ≤ (gridAt 111 109).gridW.toNat ∧ (gridAt 111 109).gridW.toNat ≤ 111 := by decide
theorem witness_SkipMovesTheCursorOnly : (gridAt 111 0).x.toNat + 111 ≤ (gridAt 111 0).gridW.toNat := by decide
theorem witness_ColumnsThatDoNotFitAreRefusedWhole :
    (gridAt 21 21).gridW.toNat < (gridAt 21 21).x.toNat + 1 ∧ (gridAt 21 20).gridW.toNat < (gridAt 21 20).x.toNat + 2 ∧
    (gridAt 21 19).gridW.toNat < (gridAt 21 19).x.toNat + 3 ∧ 1 ≤ (gridAt 21 20).seqTotal.toNat ∧
    (gridAt 21 20).seqIdx.toNat < (gridAt 21 20).seqTotal.toNat := by decide
theorem witness_GridInitClearsEveryColumn : 1 ≤ 111 ∧ 111 ≤ 111 ∧ (112 = 0 ∨ 111 < 112) := by decide
theorem witness_FinderLWritesThreeSolidColumns :
    (gridAt 111 108).x.toNat + 3 ≤ (gridAt 111 108).gridW.toNat ∧ (gridAt 111 108).gridW.toNat ≤ 111 := by decide
theorem witness_FinderRMarksParityAndTheLastChunk :
    1 ≤ (gridAt 21 19).seqTotal.toNat ∧ (gridAt 21 19).seqIdx.toNat < (gridAt 21 19).seqTotal.toNat ∧
    (gridAt 21 19).x.toNat + 2 ≤ (gridAt 21 19).gridW.toNat ∧ (gridAt 21 19).gridW.toNat ≤ 111 ∧
    State.reset.seqTotal.toNat ≤ State.reset.seqIdx.toNat := by decide
/-- Also the hypotheses of ManualSequenceEqualsAssemble. -/
theorem witness_AssembleDrawsTheLayout :
    let s := oneSymbol 0x41#8 254#8 255#8
    1 ≤ s.msgLen.toNat ∧ s.msgLen.toNat ≤ 40 ∧ 1 ≤ s.seqTotal.toNat ∧ s.seqIdx.toNat < s.seqTotal.toNat := by decide
/-- Also the hypotheses of RightFinderMarksTheLastChunk, for its first clause. -/
theorem witness_AssembledLineKeepsTheClock :
    (oneSymbol 0x41#8 0#8 1#8).msgLen.toNat ≤ 40 ∧
    nextIs (exec .assemble (oneSymbol 0x41#8 0#8 1#8))
      (fun t => decide (t.err = .ok ∧ 4 ≤ 17 ∧ 17 + 3 < t.gridW.toNat)) = true ∧
    (oneSymbol 0x41#8 0#8 1#8).seqIdx.toNat + 1 = (oneSymbol 0x41#8 0#8 1#8).seqTotal.toNat := by decide +kernel
/-- The second clause: a chunk that is not the last, with an odd and with an even id. -/
theorem witness_RightFinderMarksTheLastChunk_notLast :
    [0#8, 1#8].all (fun idx =>
      nextIs (exec .assemble (oneSymbol 0x41#8 idx 3#8)) (fun t => decide (t.err = .ok ∧ idx.toNat + 1 ≠ 3))) = true := by
  decide +kernel
theorem witness_AssembleDependsOnMessageAndSequenceOnly :
    let s := oneSymbol 0x41#8 0#8 1#8
    let s' := { s with grid := Vector.replicate 111 0xFF#8, result := 7#16 }
    message s = message s' ∧ s.msgLen = s'.msgLen ∧ s.seqIdx = s'.seqIdx ∧ s.seqTotal = s'.seqTotal ∧
    nextIs (exec .assemble s) (fun t => t.err == .ok) = true ∧ nextIs (exec .assemble s') (fun _ => true) = true := by
  decide +kernel
theorem witness_ErrorsChangeOnlyStatus : nextIs (exec .rsRem .reset) (fun t => t.err != .ok) = true ∧
    nextIs (writeReg .cursor 0#32 .reset) (fun t => t.err != .ok) = true := by decide
theorem witness_NopClearsOnlyTheErrorCode :
    statusWord (raiseError .noGenerator .reset) = 0x105#32 ∧ opField 0x80000000#32 = 0#8 ∧ 0x80000000#32 ≠ 0#32 := by decide
theorem witness_NopClearsOnlyTheErrorCode_sticky :
    nextIs (exec .rsRem (raiseError .noGenerator .reset)) (fun _ => true) = true ∧
    (raiseError .noGenerator .reset).sticky = true ∧ Reg.msgLen ≠ Reg.status ∧
    nextIs (writeReg .msgLen 1#32 (raiseError .noGenerator .reset)) (fun _ => true) = true := by decide
theorem witness_RemainderIsTheMessageModuloTheGenerator :
    1 ≤ 4 ∧ [0x41#8].length = [0x41#8].length ∧ [0xE8#8, 0x37#8, 0x13#8, 0x8D#8].length = 4 ∧
    polyMul [0x41#8] (1#8 :: generator 4) = [0x41#8] ++ [0xE8#8, 0x37#8, 0x13#8, 0x8D#8] := by decide +kernel
theorem witness_BusErrorExactlyOutsideTheMap :
    ¬ (2 = 4 ∧ 0x004 % 4 = 0 ∧ mappedOffset 0x004 = true) ∧ ¬ (4 = 4 ∧ 0x002 % 4 = 0 ∧ mappedOffset 0x002 = true) ∧
    ¬ (4 = 4 ∧ 0x028 % 4 = 0 ∧ mappedOffset 0x028 = true) ∧ ¬ (4 = 4 ∧ 0x5BC % 4 = 0 ∧ mappedOffset 0x5BC = true) := by
  decide
theorem witness_CheckedWritesStoreOrRefuse :
    checkedLimit .msgLen = some (40, .badLength) ∧ 40 < (41#32 : Word).toNat ∧ (40#32 : Word).toNat ≤ 40 ∧
    checkedLimit (.ecc 9) = some (255, .invalidSymbol) ∧ 255 < (256#32 : Word).toNat ∧
    (255#32 : Word).toNat ≤ 255 ∧ checkedLimit .seqIdx = some (255, .badValue) := by decide
theorem witness_ReadOnlyWritesAreDropped : isReadOnly (.gridCol 110) = true := by decide
theorem witness_StatusBitEightIsWriteOneToClear :
    (0x100#32 : Word).getLsbD 8 = true ∧ (0x2FF#32 : Word).getLsbD 8 = false := by decide
theorem witness_EveryStepKeepsTheStateInvariant :
    StateInv ((gridAt 21 8).withFetchWord 32 0x00004122) ∧
    nextIs (step ((gridAt 21 8).withFetchWord 32 0x00004122)) (fun t => t.x == 10#7) = true := by decide +kernel
theorem witness_EveryStepKeepsTheGeneratorWhole :
    GeneratorInv (encodedA.withFetchWord 32 0x00000A11) ∧
    nextIs (step (encodedA.withFetchWord 32 0x00000A11)) (fun t => t.genN == 10#4) = true := by decide +kernel
theorem witness_NonCursorCommandsAreIdempotent :
    isCursorCommand (.rsGen 4) = false ∧ nextIs (exec (.rsGen 4) .reset) (fun t => t.err == .ok) = true := by decide +kernel
theorem witness_TheCursorOnlyMovesForward :
    startsGrid .finderL = false ∧ nextIs (exec .finderL (gridAt 21 4)) (fun t => t.x == 7#7) = true ∧
    3 < (gridAt 21 4).x.toNat := by decide
theorem witness_OnlyScalarCommandsWriteResult :
    producesResult (.gridInit 21) = false ∧ nextIs (exec (.gridInit 21) .reset) (fun _ => true) = true ∧
    nextIs (exec (.gfLog 0#8) .reset) (fun t => t.err != .ok) = true ∧ Reg.msgLen ≠ Reg.cmd ∧
    nextIs (writeReg .msgLen 3#32 .reset) (fun _ => true) = true ∧
    StateInv { planned with payLen := 10200#14 } ∧ (Instr.selChunk 254).wellFormed = true ∧
    producesResult (.selChunk 254) = true ∧
    nextIs (exec (.selChunk 254) { planned with payLen := 10200#14 }) (fun t => t.err == .ok) = true := by decide +kernel
theorem witness_RegistersAreWrittenOnlyByTheirCommands :
    nextIs (exec .rsRem encodedA) (fun _ => true) = true ∧ buildsGenerator .rsRem = false ∧
    computesParity (.rsGen 4) = false ∧ startsGrid .rsRem = false ∧ isCursorCommand .rsRem = false := by decide +kernel

end Sys2Proof.Tests
end

