-- ==== Sys2Proof/Proofs/CommandOutcome.lean ====
section
/-! What a command can do, said once: it runs the checks of spec/60_exceptions.md R252 in their order, raises the code
of the first that fails, and otherwise makes its effect and clears STATUS.ERR. -/

namespace Sys2Proof.Machine

/-! ### The checks -/

@[simp] theorem firstError_nil : firstError [] = .ok := rfl

@[simp] theorem firstError_cons (fails : Bool) (c : ErrCode) (rest : List (Bool × ErrCode)) :
    firstError ((fails, c) :: rest) = if fails then c else firstError rest := rfl

/-- R252's check of a parity count is the machine's, negated. -/
theorem badCount_eq_not_eccCountLegal (n : Nat) : (n == 0 || decide (n > 10)) = !eccCountLegal n := by
  rw [Bool.eq_iff_iff]
  simp [eccCountLegal]

/-- R252's check of the sequence registers is the machine's, negated. -/
theorem badSequence_eq_not_sequenceLegal (s : State) :
    (s.seqTotal.toNat == 0 || decide (s.seqIdx.toNat ≥ s.seqTotal.toNat)) = !sequenceLegal s := by
  rw [Bool.eq_iff_iff]
  simp [sequenceLegal]

/-- R252's check of the cursor is the machine's, negated. -/
theorem overflow_eq_not_columnsFit (k : Nat) (s : State) :
    decide (s.x.toNat + k > s.gridW.toNat) = !columnsFit k s := by
  rw [Bool.eq_iff_iff]
  simp [columnsFit]

/-- A bit vector is 0 exactly when its number is. -/
theorem toNat_beq_zero {n : Nat} (v : BitVec n) : (v.toNat == 0) = decide (v = 0#n) := by
  rw [Bool.eq_iff_iff]
  simp [BitVec.toNat_eq]

/-! ### The effect -/

/-- What a command does to the registers other than STATUS once its checks have passed; `exec_eq` ties it to `exec`. -/
def effect : Instr → State → State
  | .nop, s => s
  | .gfMul a b, s => setResult (gfMul a b).toNat s
  | .gfExp i, s => setResult (expTable i).toNat s
  | .gfLog a, s => setResult (logTable a).toNat s
  | .eccCount len, s => setResult (eccCount len) s
  | .rsGen n, s => installGenerator n s
  | .rsRem, s => installRemainder (currentGenerator s) s
  | .rsEncode n, s => encodeMessage n s
  | .rsSynd n, s =>
    setResult (if (syndromes (message s ++ parity n s) n).all (· == 0#8) then 1 else 0)
      { s with syn := pad 10 (syndromes (message s ++ parity n s) n) }
  | .gridInit w, s => clearGrid w s
  | .colWrite v m, s => putColumn (columnOf s.x.toNat v m) s
  | .byteWrite d m, s => putByte m d s
  | .finderL, s => putColumns leftFinderColumns s
  | .skip k, s => advance k s
  | .finderR, s => putColumns (rightFinderColumns s) s
  | .assemble, s =>
    setResult (lineWidth (chunkLength s)) (drawLine (encodeMessage (eccCount (chunkLength s)) s))
  | .plan len, s =>
    setResult (chunkCount len)
      { s with payLen := BitVec.ofNat 14 len, seqTotal := BitVec.ofNat 8 (chunkCount len), seqIdx := 0#8 }
  | .selChunk k, s =>
    setResult (chunkOffset k)
      { s with seqIdx := BitVec.ofNat 8 k, msgLen := BitVec.ofNat 6 (chunkLen s.payLen.toNat k) }

/-- Every command answers a next state: the effect when no check fails, the first failed check's error otherwise. -/
theorem exec_eq (i : Instr) (s : State) :
    exec i s = .next (if firstError (commandChecks i s) = .ok then succeed (effect i s)
      else raiseError (firstError (commandChecks i s)) s) := by
  cases i with
  | nop => rfl
  | gfMul a b => rfl
  | gfExp n => rfl
  | gfLog a =>
    simp only [exec, execGfLog, commandChecks, toNat_beq_zero]
    by_cases zero : a = 0#8 <;> simp [zero, effect]
  | eccCount len => rfl
  | rsGen n =>
    simp only [exec, execRsGen, commandChecks, badCount_eq_not_eccCountLegal]
    cases eccCountLegal n <;> simp [effect]
  | rsRem =>
    simp only [exec, execRsRem, commandChecks, toNat_beq_zero]
    by_cases noGen : s.genN = 0#4 <;> by_cases empty : s.msgLen = 0#6 <;> simp [noGen, empty, effect]
  | rsEncode n =>
    simp only [exec, execRsEncode, commandChecks, badCount_eq_not_eccCountLegal, toNat_beq_zero]
    cases eccCountLegal n <;> by_cases empty : s.msgLen = 0#6 <;> simp [empty, effect]
  | rsSynd n =>
    simp only [exec, execRsSynd, commandChecks, badCount_eq_not_eccCountLegal, toNat_beq_zero]
    cases eccCountLegal n <;> by_cases empty : s.msgLen = 0#6 <;> simp [empty, effect]
  | gridInit w =>
    simp only [exec, execGridInit, commandChecks]
    by_cases bad : w < 1 ∨ w > Config.gridCap
    · simp [show w = 0 ∨ 111 < w by simpa using bad]
    · simp [show ¬ (w = 0 ∨ 111 < w) by simpa using bad, effect]
  | colWrite v m =>
    simp only [exec, execColWrite, commandChecks, overflow_eq_not_columnsFit]
    cases columnsFit 1 s <;> simp [effect]
  | byteWrite d m =>
    simp only [exec, execByteWrite, commandChecks, overflow_eq_not_columnsFit]
    cases columnsFit 2 s <;> simp [effect]
  | finderL =>
    simp only [exec, execFinderL, commandChecks, overflow_eq_not_columnsFit]
    cases columnsFit 3 s <;> simp [effect]
  | skip k =>
    simp only [exec, execSkip, commandChecks, overflow_eq_not_columnsFit]
    cases columnsFit k s <;> simp [effect]
  | finderR =>
    simp only [exec, execFinderR, commandChecks, badSequence_eq_not_sequenceLegal, overflow_eq_not_columnsFit]
    cases sequenceLegal s <;> cases columnsFit 2 s <;> simp [effect]
  | assemble =>
    simp only [exec, execAssemble, commandChecks, badSequence_eq_not_sequenceLegal]
    rw [toNat_beq_zero s.msgLen]
    by_cases empty : s.msgLen = 0#6 <;> cases sequenceLegal s <;> simp [empty, effect]
  | plan len =>
    simp only [exec, execPlan, commandChecks]
    by_cases long : len > Config.payloadMax
    · simp [long]
    · simp [long, effect]
  | selChunk k =>
    simp only [exec, execSelChunk, commandChecks]
    by_cases beyond : chunkOffset k ≥ s.payLen.toNat
    · simp [beyond, show s.payLen.toNat ≤ 40 * k from beyond]
    · simp [beyond, show ¬ s.payLen.toNat ≤ 40 * k from beyond, effect]

/-- A command succeeds with its effect, or raises the first failed check's error and changes STATUS only. -/
theorem exec_cases {i : Instr} {s t : State} (h : exec i s = .next t) :
    (firstError (commandChecks i s) = .ok ∧ t = succeed (effect i s)) ∨
    (∃ c, c ≠ .ok ∧ firstError (commandChecks i s) = c ∧ t = raiseError c s) := by
  rw [exec_eq] at h
  cases h
  by_cases passed : firstError (commandChecks i s) = .ok
  · exact .inl ⟨passed, if_pos passed⟩
  · exact .inr ⟨_, passed, rfl, if_neg passed⟩

end Sys2Proof.Machine
end

