-- ==== Sys2Proof/Proofs/ResultRegister.lean ====
section
/-! RESULT (spec/10_state.md R35): who leaves it, and how large a value a command can put there. -/

namespace Sys2Proof.Machine

/-! ### The shared operations on RESULT -/

@[simp] theorem putColumns_result (cs : List Column) (s : State) : (putColumns cs s).result = s.result := by
  rw [putColumns_frame]

@[simp] theorem putByte_result (isMeta : Bool) (d : Symbol) (s : State) : (putByte isMeta d s).result = s.result :=
  putColumns_result _ s

@[simp] theorem encodeMessage_result (n : Nat) (s : State) : (encodeMessage n s).result = s.result := rfl

/-- A bound on the value is a bound on RESULT: the 16-bit register keeps the low bits. -/
theorem setResult_toNat_le {v n : Nat} (h : v ≤ n) (s : State) : (setResult v s).result.toNat ≤ n := by
  rw [setResult_result, BitVec.toNat_ofNat]
  exact (Nat.mod_le v _).trans h

/-! ### Commands -/

/-- The ten commands that produce no scalar leave RESULT. -/
theorem effect_result_of_not_producesResult {i : Instr} (h : producesResult i = false) (s : State) :
    (effect i s).result = s.result := by
  cases i with
  | gfMul | gfExp | gfLog | eccCount | rsSynd | plan | selChunk | assemble => cases h
  | nop | rsGen | rsRem | rsEncode | gridInit | colWrite | byteWrite | finderL | skip | finderR => simp [effect]

/-- A line of at most 40 symbols fits the grid (spec/44_grid_assembler.md R210). -/
theorem lineWidth_le {len : Nat} (h : len ≤ 40) : lineWidth len ≤ 111 := by
  simp only [lineWidth, eccCount]
  omega

/-- The scalar of a command that passes its checks: a symbol, a flag, a count, a width, or the offset of a chunk that
starts inside the payload. -/
theorem effect_result_le {i : Instr} {s : State} (inv : StateInv s) (wf : i.wellFormed = true)
    (scalar : producesResult i = true) (passed : firstError (commandChecks i s) = .ok) :
    (effect i s).result.toNat ≤ 10160 := by
  obtain ⟨-, -, -, msgLen_le, -, payLen_le, -⟩ := inv
  have symbol_le (a : Symbol) : a.toNat ≤ 10160 := by omega
  cases i with
  | gfMul a b => exact setResult_toNat_le (symbol_le _) _
  | gfExp n => exact setResult_toNat_le (symbol_le _) _
  | gfLog a => exact setResult_toNat_le (symbol_le _) _
  | eccCount len =>
    have fits : len < 256 := by simpa [Instr.wellFormed, fitsA] using wf
    exact setResult_toNat_le (by simp only [eccCount]; omega) _
  | rsSynd n => exact setResult_toNat_le (by split <;> omega) _
  | assemble => exact setResult_toNat_le ((lineWidth_le msgLen_le).trans (by omega)) _
  | plan len =>
    have short : len ≤ 10200 := by simpa [commandChecks] using passed
    exact setResult_toNat_le (by simp only [chunkCount, Config.msgCap]; omega) _
  | selChunk k =>
    have inside : 40 * k < s.payLen.toNat := by simpa [commandChecks] using passed
    exact setResult_toNat_le (by simp only [chunkOffset, Config.msgCap]; omega) _
  | nop | rsGen | rsRem | rsEncode | gridInit | colWrite | byteWrite | finderL | skip | finderR => cases scalar

/-- A command that produces no scalar, and a command that fails, leaves RESULT. -/
theorem exec_keeps_result {i : Instr} {s t : State} (h : exec i s = .next t)
    (silent : producesResult i = false ∨ t.err ≠ .ok) : t.result = s.result := by
  obtain ⟨-, rfl⟩ | ⟨c, -, -, rfl⟩ := exec_cases h
  · rcases silent with noScalar | failed
    · exact effect_result_of_not_producesResult noScalar s
    · exact absurd (succeed_err _) failed
  · rfl

/-- In a state of R41 a command that succeeds puts no more than 10160 into RESULT. -/
theorem exec_result_le {i : Instr} {s t : State} (inv : StateInv s) (wf : i.wellFormed = true)
    (scalar : producesResult i = true) (h : exec i s = .next t) (ok : t.err = .ok) : t.result.toNat ≤ 10160 := by
  obtain ⟨passed, rfl⟩ | ⟨c, failed, -, rfl⟩ := exec_cases h
  · exact effect_result_le inv wf scalar passed
  · exact absurd ok failed

/-- The bound is met by the last chunk of the longest payload. -/
theorem exec_selChunk_254_result {s : State} (h : s.payLen = 10200#14) :
    ∃ t, exec (.selChunk 254) s = .next t ∧ t.result.toNat = 10160 := by
  have passed : firstError (commandChecks (.selChunk 254) s) = .ok := by simp [commandChecks, h]
  exact ⟨succeed (effect (.selChunk 254) s), by rw [exec_eq, if_pos passed], rfl⟩

/-! ### Register writes -/

/-- `t` is `s` up to STATUS and the registers that the host writes directly (spec/20_memory.md R65, R67). -/
def HostWriteFrame (s t : State) : Prop :=
  t = { s with msg := t.msg, msgLen := t.msgLen, ecc := t.ecc, seqIdx := t.seqIdx, seqTotal := t.seqTotal,
               err := t.err, sticky := t.sticky }

theorem HostWriteFrame.result_eq {s t : State} (h : HostWriteFrame s t) : t.result = s.result := by
  unfold HostWriteFrame at h
  rw [h]

theorem hostWriteFrame_checkedWrite {limit : Nat} {c : ErrCode} {v : Word} {put : State → State} {s : State}
    (h : HostWriteFrame s (put s)) : HostWriteFrame s (checkedWrite limit c v put s) := by
  unfold HostWriteFrame at h
  obtain ⟨-, refused⟩ | ⟨-, written⟩ := checkedWrite_cases limit c v put s
  · rw [refused]
    rfl
  · rw [written, h]
    rfl

/-- A write to a register other than CMD stays within that frame. -/
theorem writeReg_hostWriteFrame {r : Reg} {v : Word} {s t : State} (hr : r ≠ .cmd)
    (h : writeReg r v s = .next t) : HostWriteFrame s t := by
  cases r with
  | cmd => exact absurd rfl hr
  | msg | msgLen | ecc | seqIdx | seqTotal =>
    cases h
    exact hostWriteFrame_checkedWrite rfl
  | status | result | cursor | gridW | payLen | genN | gen | syn | gridCol =>
    cases h
    rfl

/-- Settles O53: each clause is one of the lemmas above, the commands' through `exec_cases`, the register writes'
through `HostWriteFrame`. -/
theorem onlyScalarCommandsWriteResult : Obligations.OnlyScalarCommandsWriteResult :=
  ⟨fun _ _ _ h silent => exec_keeps_result h silent,
    fun _ _ _ _ hr h => (writeReg_hostWriteFrame hr h).result_eq,
    fun _ => rfl,
    fun _ _ _ inv wf scalar h ok => exec_result_le inv wf scalar h ok,
    fun _ h => exec_selChunk_254_result h⟩

end Sys2Proof.Machine
end

