-- ==== Sys2Proof/Proofs/RegisterMap.lean ====
section
/-! Which access reaches which register (spec/20_memory.md R61), and the accesses that reach none (R63). -/

namespace Sys2Proof.Machine

/-! ### The map -/

theorem mappedOffset_iff_ranges (a : Nat) :
    mappedOffset a = true ↔ a % 4 = 0 ∧
      (a ≤ 0x024 ∨ (0x100 ≤ a ∧ a ≤ 0x19C) ∨ (0x200 ≤ a ∧ a ≤ 0x224) ∨
        (0x240 ≤ a ∧ a ≤ 0x264) ∨ (0x280 ≤ a ∧ a ≤ 0x2A4) ∨ (0x400 ≤ a ∧ a ≤ 0x5B8)) := by
  simp [mappedOffset, or_assoc]

/-- The listed offsets are the registers' own. -/
theorem mappedOffset_iff_regOffset (a : Nat) : mappedOffset a = true ↔ ∃ r, regOffset r = a := by
  rw [mappedOffset_iff_ranges]
  constructor
  · rintro ⟨aligned, scalar | msg | gen | ecc | syn | grid⟩
    · obtain ⟨k, rfl⟩ := Nat.dvd_of_mod_eq_zero aligned
      have hk : k < 10 := by omega
      interval_cases k
      exacts [⟨.cmd, rfl⟩, ⟨.status, rfl⟩, ⟨.result, rfl⟩, ⟨.cursor, rfl⟩, ⟨.gridW, rfl⟩, ⟨.msgLen, rfl⟩,
        ⟨.seqIdx, rfl⟩, ⟨.seqTotal, rfl⟩, ⟨.payLen, rfl⟩, ⟨.genN, rfl⟩]
    · exact ⟨.msg ⟨(a - 0x100) / 4, by omega⟩, by simp only [regOffset]; omega⟩
    · exact ⟨.gen ⟨(a - 0x200) / 4, by omega⟩, by simp only [regOffset]; omega⟩
    · exact ⟨.ecc ⟨(a - 0x240) / 4, by omega⟩, by simp only [regOffset]; omega⟩
    · exact ⟨.syn ⟨(a - 0x280) / 4, by omega⟩, by simp only [regOffset]; omega⟩
    · exact ⟨.gridCol ⟨(a - 0x400) / 4, by omega⟩, by simp only [regOffset]; omega⟩
  · rintro ⟨r, rfl⟩
    cases r with
    | msg i | gen i | ecc i | syn i | gridCol i =>
      have in_array := i.isLt
      simp only [regOffset]
      omega
    | cmd | status | result | cursor | gridW | msgLen | seqIdx | seqTotal | payLen | genN => simp [regOffset]

/-- The entry found in an array of words stands at the offset it was found at. -/
theorem arrayIndex_offset {base n addr : Nat} {i : Fin n} (h : arrayIndex base n addr = some i)
    (base_aligned : base % 4 = 0) (aligned : addr % 4 = 0) : base + 4 * i.val = addr := by
  obtain ⟨base_le, index⟩ := arrayIndex_some h
  omega

/-- The map gives an aligned offset to one register only, the one whose own offset it is. -/
theorem regOffset_of_regAt {addr : Nat} {r : Reg} (h : regAt addr = some r) (aligned : addr % 4 = 0) :
    regOffset r = addr := by
  unfold regAt at h
  split at h
  case h_11 =>
    iterate 5
      split at h
      case h_1 found => cases h; exact arrayIndex_offset found rfl aligned
    cases h
  all_goals cases h; rfl

/-! ### Accesses -/

/-- The accesses that reach a register are the 32-bit ones at its offset. -/
theorem accessedReg_eq_some_iff (addr size : Nat) (r : Reg) :
    accessedReg addr size = some r ↔ size = 4 ∧ regOffset r = addr := by
  constructor
  · intro h
    unfold accessedReg at h
    split at h
    · rename_i legal
      exact ⟨legal.1, regOffset_of_regAt h legal.2⟩
    · cases h
  · rintro ⟨rfl, rfl⟩
    exact accessedReg_regOffset r

/-- An access reaches no register exactly when it is not 32 bits wide, not aligned or not mapped (R63). -/
theorem accessedReg_eq_none_iff (addr size : Nat) :
    accessedReg addr size = none ↔ ¬ (size = 4 ∧ addr % 4 = 0 ∧ mappedOffset addr = true) := by
  rw [Option.eq_none_iff_forall_ne_some, ← not_exists, not_iff_not]
  simp only [accessedReg_eq_some_iff, mappedOffset_iff_regOffset]
  constructor
  · rintro ⟨r, size_eq, rfl⟩
    exact ⟨size_eq, regOffset_aligned r, r, rfl⟩
  · rintro ⟨size_eq, -, r, offset⟩
    exact ⟨r, size_eq, offset⟩

/-- No write to a register faults: it answers a state, the command's when the register is CMD. -/
theorem writeReg_completes (r : Reg) (v : Word) (s : State) : ∃ t, writeReg r v s = .next t := by
  cases r with
  | cmd =>
    cases h : decode v with
    | ok i =>
      have runs : writeReg .cmd v s = exec i s := by simp only [writeReg, writeCmd, h]
      exact ⟨_, runs.trans (exec_eq i s)⟩
    | error e => exact ⟨raiseError (decodeErrCode e) s, by simp only [writeReg, writeCmd, h]⟩
  | status | result | cursor | gridW | msgLen | seqIdx | seqTotal | payLen | genN | msg | gen | ecc | syn | gridCol =>
    exact ⟨_, rfl⟩

/-- A 32-bit write at a register's offset is the write of that register. -/
theorem serveEvent_write_regOffset (r : Reg) (v : Word) (s : State) :
    serveEvent (.write (regOffset r) 4 v) s = writeReg r v { s with response := .written } := by
  simp only [serveEvent, accessedReg_regOffset]

theorem serveEvent_read_fault_iff (addr size : Nat) (s : State) :
    serveEvent (.read addr size) s = .fault .busError ↔ accessedReg addr size = none := by
  cases h : accessedReg addr size <;> simp [serveEvent, h]

theorem serveEvent_write_fault_iff (addr size : Nat) (v : Word) (s : State) :
    serveEvent (.write addr size v) s = .fault .busError ↔ accessedReg addr size = none := by
  cases h : accessedReg addr size with
  | none => simp [serveEvent, h]
  | some r =>
    obtain ⟨t, written⟩ := writeReg_completes r v { s with response := .written }
    simp [serveEvent, h, written]

/-- A faulting access answers BusError and leaves the state. -/
theorem respond_of_fault {e : BusEvent} {s : State} (h : serveEvent e s = .fault .busError) :
    respond e s = (.busError, s) := by
  simp only [respond, h]

/-- Settles O42: reads and writes fault exactly when they reach no register, and `accessedReg_eq_none_iff` says when
that is. -/
theorem busErrorExactlyOutsideTheMap : Obligations.BusErrorExactlyOutsideTheMap := by
  intro addr size v s
  have read := (serveEvent_read_fault_iff addr size s).trans (accessedReg_eq_none_iff addr size)
  have write := (serveEvent_write_fault_iff addr size v s).trans (accessedReg_eq_none_iff addr size)
  exact ⟨read, write, fun outside => ⟨respond_of_fault (read.2 outside), respond_of_fault (write.2 outside)⟩⟩

end Sys2Proof.Machine
end

