-- ==== Sys2Proof/Proofs/RegisterWrites.lean ====
section
/-! What a write to a register other than CMD does (spec/20_memory.md R65 to R67): it stores, it is refused, or it
clears STICKY. -/

namespace Sys2Proof.Machine

/-! ### Reads after a change of STATUS or of the answer -/

@[simp] theorem readReg_setResponse (r : Reg) (a : Response) (s : State) :
    readReg r { s with response := a } = readReg r s := by
  cases r <;> rfl

/-- Ending a checked write changes no register but STATUS. -/
theorem readReg_succeed {r : Reg} (h : r ≠ .status) (s : State) : readReg r (succeed s) = readReg r s := by
  cases r with
  | status => exact absurd rfl h
  | cmd | result | cursor | gridW | msgLen | seqIdx | seqTotal | payLen | genN | msg | gen | ecc | syn | gridCol => rfl

/-! ### Storing a value -/

/-- The store a checked write makes when its value is within the limit; `writeReg_checked` ties it to `writeReg`. -/
def storeReg : Reg → Word → State → State
  | .msgLen, v, s => { s with msgLen := v.setWidth 6 }
  | .seqIdx, v, s => { s with seqIdx := v.setWidth 8 }
  | .seqTotal, v, s => { s with seqTotal := v.setWidth 8 }
  | .msg i, v, s => { s with msg := s.msg.setIfInBounds i (v.setWidth 8) }
  | .ecc j, v, s => { s with ecc := s.ecc.setIfInBounds j (v.setWidth 8) }
  | _, _, s => s

/-- A store touches neither STATUS nor the two fields of the model's own. -/
theorem storeReg_frame (r : Reg) (v : Word) (s : State) :
    (storeReg r v s).err = s.err ∧ (storeReg r v s).sticky = s.sticky ∧
    (storeReg r v s).pending = s.pending ∧ (storeReg r v s).response = s.response := by
  cases r <;> exact ⟨rfl, rfl, rfl, rfl⟩

/-- A word below 2^k passes unchanged through a register of k bits. -/
theorem setWidth_setWidth_of_lt {k : Nat} {v : Word} (h : v.toNat < 2 ^ k) : (v.setWidth k).setWidth 32 = v := by
  apply BitVec.eq_of_toNat_eq
  rw [BitVec.toNat_setWidth, BitVec.toNat_setWidth, Nat.mod_eq_of_lt h, Nat.mod_eq_of_lt v.isLt]

/-- A value within the limit reads back whole. -/
theorem readReg_storeReg_same {r : Reg} {limit : Nat} {code : ErrCode} {v : Word}
    (h : checkedLimit r = some (limit, code)) (fits : v.toNat ≤ limit) (s : State) :
    readReg r (storeReg r v s) = v := by
  cases r with
  | msgLen | seqIdx | seqTotal =>
    cases h
    exact setWidth_setWidth_of_lt (by omega)
  | msg i | ecc i =>
    cases h
    simp only [readReg, storeReg, entry_setIfInBounds, i.isLt, and_self, if_true]
    exact setWidth_setWidth_of_lt (by omega)
  | cmd | status | result | cursor | gridW | payLen | genN | gen | syn | gridCol => cases h

/-- An entry other than the written one keeps its value. -/
theorem entry_setIfInBounds_ne {n : Nat} (a : Vector (BitVec 8) n) {i j : Fin n} (h : j ≠ i) (b : BitVec 8) :
    entry (a.setIfInBounds i b) j = entry a j := by
  rw [entry_setIfInBounds, if_neg]
  rintro ⟨same, -⟩
  exact h (Fin.ext same.symm)

/-- A store leaves what every other register reads. -/
theorem readReg_storeReg_other {r r' : Reg} (h : r' ≠ r) (v : Word) (s : State) :
    readReg r' (storeReg r v s) = readReg r' s := by
  cases r with
  | cmd | status | result | cursor | gridW | payLen | genN | gen | syn | gridCol => rfl
  | msgLen =>
    cases r' with
    | msgLen => exact absurd rfl h
    | _ => rfl
  | seqIdx =>
    cases r' with
    | seqIdx => exact absurd rfl h
    | _ => rfl
  | seqTotal =>
    cases r' with
    | seqTotal => exact absurd rfl h
    | _ => rfl
  | msg i =>
    cases r' with
    | msg j =>
      have apart : j ≠ i := fun same => h (congrArg Reg.msg same)
      simp only [readReg, storeReg, entry_setIfInBounds_ne _ apart]
    | _ => rfl
  | ecc i =>
    cases r' with
    | ecc j =>
      have apart : j ≠ i := fun same => h (congrArg Reg.ecc same)
      simp only [readReg, storeReg, entry_setIfInBounds_ne _ apart]
    | _ => rfl

/-! ### Checked writes (R65) -/

section
variable {r : Reg} {limit : Nat} {code : ErrCode} {v : Word}

/-- The write of a register with a limit is the rule's CheckedWrite of its store. -/
theorem writeReg_checked (h : checkedLimit r = some (limit, code)) (s : State) :
    writeReg r v s = .next (checkedWrite limit code v (storeReg r v) s) := by
  cases r with
  | msgLen | seqIdx | seqTotal | msg | ecc =>
    cases h
    rfl
  | cmd | status | result | cursor | gridW | payLen | genN | gen | syn | gridCol => cases h

theorem writeReg_refused (h : checkedLimit r = some (limit, code)) (above : limit < v.toNat) (s : State) :
    writeReg r v s = .next (raiseError code s) := by
  rw [writeReg_checked h, checkedWrite, if_pos above]

theorem writeReg_stored (h : checkedLimit r = some (limit, code)) (fits : v.toNat ≤ limit) (s : State) :
    writeReg r v s = .next (succeed (storeReg r v s)) := by
  rw [writeReg_checked h, checkedWrite, if_neg (Nat.not_lt.2 fits)]

/-- A checked register is not STATUS, so ending the write does not disturb the value read back. -/
theorem readReg_succeed_storeReg_same (h : checkedLimit r = some (limit, code)) (fits : v.toNat ≤ limit) (s : State) :
    readReg r (succeed (storeReg r v s)) = v := by
  have not_status : r ≠ .status := by
    rintro rfl
    cases h
  rw [readReg_succeed not_status, readReg_storeReg_same h fits]

theorem readReg_succeed_storeReg_other {r' : Reg} (other : r' ≠ r) (not_status : r' ≠ .status) (s : State) :
    readReg r' (succeed (storeReg r v s)) = readReg r' s := by
  rw [readReg_succeed not_status, readReg_storeReg_other other]

end

/-- A refused symbol reads 0x10B in STATUS: code 0x0B with STICKY. -/
theorem statusWord_raiseError_invalidSymbol (s : State) : statusWord (raiseError .invalidSymbol s) = 0x10B#32 := by
  simp only [statusWord, raiseError_err, raiseError_sticky]
  decide

/-- Settles O44: a refused write is `raiseError`, one within the limit is `storeReg` and `succeed`; the host access is
the same write from the state whose answer field says that a write completed. -/
theorem checkedWritesStoreOrRefuse : Obligations.CheckedWritesStoreOrRefuse := by
  refine ⟨fun r limit code v s h => ⟨fun above => writeReg_refused h above s, fun fits => ?_, fun above => ?_,
    fun fits => ?_⟩, fun s => ?_⟩
  · obtain ⟨-, sticky, pending, response⟩ := storeReg_frame r v s
    exact ⟨_, writeReg_stored h fits s, readReg_succeed_storeReg_same h fits s, rfl, sticky, pending, response,
      fun r' other not_status => readReg_succeed_storeReg_other other not_status s⟩
  · exact ⟨_, (serveEvent_write_regOffset r v s).trans (writeReg_refused h above _), rfl⟩
  · obtain ⟨-, sticky, pending, -⟩ := storeReg_frame r v { s with response := .written }
    refine ⟨_, (serveEvent_write_regOffset r v s).trans (writeReg_stored h fits _),
      readReg_succeed_storeReg_same h fits _, rfl, sticky, pending, fun r' other not_status => ?_⟩
    rw [readReg_succeed_storeReg_other other not_status, readReg_setResponse]
  · have refused := writeReg_refused (r := .msg 0) (v := 0x12C#32) rfl (by decide)
    exact ⟨⟨_, refused s, rfl, statusWord_raiseError_invalidSymbol s⟩,
      ⟨_, (serveEvent_write_regOffset (.msg 0) _ s).trans (refused _), rfl, statusWord_raiseError_invalidSymbol _⟩⟩

/-! ### Read-only registers (R66) -/

theorem writeReg_readOnly {r : Reg} (h : isReadOnly r = true) (v : Word) (s : State) :
    writeReg r v s = .next (raiseError .readOnly s) := by
  cases r with
  | result | cursor | gridW | payLen | genN | gen | syn | gridCol => rfl
  | cmd | status | msgLen | seqIdx | seqTotal | msg | ecc => cases h

/-- Settles O45: the write of a read-only register is `raiseError`, at the register and at its offset. -/
theorem readOnlyWritesAreDropped : Obligations.ReadOnlyWritesAreDropped :=
  fun r v s h => ⟨writeReg_readOnly h v s, rfl,
    _, (serveEvent_write_regOffset r v s).trans (writeReg_readOnly h v _), rfl⟩

/-! ### STATUS (R67) -/

theorem writeStatus_of_bit_set {v : Word} (h : v.getLsbD 8 = true) (s : State) :
    writeStatus v s = { s with sticky := false } := by
  simp only [writeStatus, h, Bool.not_true, Bool.and_false]

theorem writeStatus_of_bit_clear {v : Word} (h : v.getLsbD 8 = false) (s : State) : writeStatus v s = s := by
  simp only [writeStatus, h, Bool.not_false, Bool.and_true]

/-- Settles O46: the write of STATUS is `writeStatus`, which bit 8 alone decides. -/
theorem statusBitEightIsWriteOneToClear : Obligations.StatusBitEightIsWriteOneToClear :=
  fun v s => ⟨fun set => congrArg Host.Outcome.next (writeStatus_of_bit_set set s),
    fun clear => congrArg Host.Outcome.next (writeStatus_of_bit_clear clear s),
    writeStatus v { s with response := .written }, serveEvent_write_regOffset .status v s,
    fun set => writeStatus_of_bit_set set _, fun clear => writeStatus_of_bit_clear clear _⟩

end Sys2Proof.Machine
end

