-- ==== Sys2Proof/Proofs/OpcodeTable.lean ====
section
/-! The decoder against the rows of spec/opcode_table.json (spec/30_encoding.md R93, R94): which words are performed,
which have a reserved bit set, and which have no row's opcode byte. -/

namespace Sys2Proof.Machine

/-! ### The opcode byte -/

/-- A word under the opcode mask is its opcode byte. -/
theorem and_opcodeMask (w : Word) : w &&& 0xFF#32 = BitVec.ofNat 32 (opField w).toNat := by
  have low_bits : w.toNat &&& 0xFF % 2 ^ 32 = w.toNat % 2 ^ 8 := Nat.and_two_pow_sub_one_eq_mod w.toNat 8
  apply BitVec.eq_of_toNat_eq
  simp only [opField, BitVec.toNat_and, BitVec.toNat_ofNat, BitVec.extractLsb'_toNat, Nat.shiftRight_zero]
  omega

/-- Some row of the table has the word's opcode byte. -/
def HasOpcodeRow (w : Word) : Prop := ∃ row ∈ opcodeRows, w &&& 0xFF#32 = row.value

/-- The word matches a row of the table. -/
def MatchesRow (w : Word) : Prop := ∃ row ∈ opcodeRows, w &&& row.mask = row.value

/-- The opcode map of spec/30_encoding.md, section 3. -/
theorem hasOpcodeRow_iff (w : Word) :
    HasOpcodeRow w ↔ (opField w).toNat ∈ [0x00, 0x01, 0x02, 0x03, 0x10, 0x11, 0x12, 0x13, 0x14, 0x20, 0x21, 0x22, 0x23,
      0x24, 0x25, 0x26, 0x30, 0x31] := by
  have byte_number : (w &&& 0xFF#32).toNat = (opField w).toNat := by
    rw [and_opcodeMask, BitVec.toNat_ofNat]
    omega
  simp [HasOpcodeRow, opcodeRows, ← BitVec.toNat_inj, ← byte_number]

/-! ### The rows -/

theorem opcodeRow_mem (i : Instr) : opcodeRow i ∈ opcodeRows := by
  cases i <;> simp [opcodeRow, opcodeRows]

/-- Every row's mask covers the opcode byte, and its match has the opcode and zeros (R93). -/
theorem value_eq_of_matches {w : Word} {row : OpcodeRow} (mem : row ∈ opcodeRows)
    (matches_row : w &&& row.mask = row.value) : w &&& 0xFF#32 = row.value := by
  have row_shape : ∀ r ∈ opcodeRows, r.mask &&& 0xFF#32 = 0xFF#32 ∧ r.value &&& 0xFF#32 = r.value := by decide
  obtain ⟨mask_covers, value_low⟩ := row_shape row mem
  calc w &&& 0xFF#32 = w &&& row.mask &&& 0xFF#32 := by rw [BitVec.and_assoc, mask_covers]
    _ = row.value := by rw [matches_row, value_low]

theorem MatchesRow.hasOpcodeRow {w : Word} (h : MatchesRow w) : HasOpcodeRow w := by
  obtain ⟨row, mem, matches_row⟩ := h
  exact ⟨row, mem, value_eq_of_matches mem matches_row⟩

/-- No two rows have the same opcode, so a word matches at most the row of its opcode byte. -/
theorem row_eq_of_matches_of_opcode {w : Word} {row row' : OpcodeRow} (mem : row ∈ opcodeRows)
    (mem' : row' ∈ opcodeRows) (matches_row : w &&& row.mask = row.value) (byte : w &&& 0xFF#32 = row'.value) :
    row = row' :=
  List.inj_on_of_nodup_map (show (opcodeRows.map OpcodeRow.value).Nodup by decide) mem mem'
    ((value_eq_of_matches mem matches_row).symm.trans byte)

/-- A word with the opcode byte of a command can match that command's row only. -/
theorem matchesRow_iff_of_opcode {w : Word} {i : Instr} (byte : w &&& 0xFF#32 = (opcodeRow i).value) :
    MatchesRow w ↔ w &&& (opcodeRow i).mask = (opcodeRow i).value := by
  constructor
  · rintro ⟨row, mem, matches_row⟩
    rwa [row_eq_of_matches_of_opcode mem (opcodeRow_mem i) matches_row byte] at matches_row
  · exact fun matches_row => ⟨_, opcodeRow_mem i, matches_row⟩

/-! ### Formats -/

/-- The format of a command (R91); `opcodeRow_mask` ties it to the table and `decode_eq_checked_or_illegal` to the
decoder. -/
def formatOf : Instr → Format
  | .nop | .rsRem | .finderL | .finderR | .assemble => .n
  | .gfLog _ | .eccCount _ | .rsGen _ | .rsEncode _ | .rsSynd _ | .gridInit _ | .skip _ | .selChunk _ => .a
  | .gfMul _ _ => .ab
  | .gfExp _ => .i9
  | .plan _ => .i16
  | .colWrite _ _ => .col
  | .byteWrite _ _ => .byte

/-- A row's mask is the reserved bits of its format and the opcode byte (R93). -/
theorem opcodeRow_mask (i : Instr) : (opcodeRow i).mask = reservedMask (formatOf i) ||| 0xFF#32 := by
  cases i with
  | nop | rsRem | finderL | finderR | assemble => exact show 0xFFFFFFFF#32 = reservedMask .n ||| 0xFF#32 by decide
  | gfLog | eccCount | rsGen | rsEncode | rsSynd | gridInit | skip | selChunk =>
    exact show 0xFFFF00FF#32 = reservedMask .a ||| 0xFF#32 by decide
  | gfMul => exact show 0xFF0000FF#32 = reservedMask .ab ||| 0xFF#32 by decide
  | gfExp => exact show 0xFFFE00FF#32 = reservedMask .i9 ||| 0xFF#32 by decide
  | plan => exact show 0xFF0000FF#32 = reservedMask .i16 ||| 0xFF#32 by decide
  | colWrite => exact show 0xFFFEF0FF#32 = reservedMask .col ||| 0xFF#32 by decide
  | byteWrite => exact show 0xFFFE00FF#32 = reservedMask .byte ||| 0xFF#32 by decide

/-- No format reserves a bit of the opcode byte. -/
theorem opcodeMask_and_reservedMask (f : Format) : 0xFF#32 &&& reservedMask f = 0#32 := by
  cases f <;> rfl

/-- A word with the opcode byte of a command matches its row exactly when no reserved bit is set. -/
theorem matches_opcodeRow_iff {w : Word} {i : Instr} (byte : w &&& 0xFF#32 = (opcodeRow i).value) :
    w &&& (opcodeRow i).mask = (opcodeRow i).value ↔ w &&& reservedMask (formatOf i) = 0#32 := by
  rw [opcodeRow_mask, BitVec.and_or_distrib_left, byte]
  constructor
  · intro reserved_in_value
    have value_clear : (opcodeRow i).value &&& reservedMask (formatOf i) = 0#32 := by
      rw [← byte, BitVec.and_assoc, opcodeMask_and_reservedMask, BitVec.and_zero]
    calc w &&& reservedMask (formatOf i)
        = (w &&& reservedMask (formatOf i) ||| (opcodeRow i).value) &&& reservedMask (formatOf i) := by
          rw [BitVec.and_or_distrib_right, value_clear, BitVec.or_zero, BitVec.and_assoc, BitVec.and_self]
      _ = 0#32 := by rw [reserved_in_value, value_clear]
  · intro clear
    rw [clear, BitVec.zero_or]

/-! ### The decoder -/

/-- A line of the decoder: the check of a command whose row has the word's opcode byte. -/
theorem checked_of_opcode {f : Format} {w : Word} {i : Instr} {n : Nat} (format : formatOf i = f)
    (op : (opField w).toNat = n) (value : (opcodeRow i).value = BitVec.ofNat 32 n) :
    ∃ j, checked f w i = checked (formatOf j) w j ∧ w &&& 0xFF#32 = (opcodeRow j).value :=
  ⟨i, by rw [format], by rw [and_opcodeMask, op, value]⟩

/-- The decoder finds a command of the word's opcode byte and checks the reserved bits of its format, or no row has the
byte. -/
theorem decode_eq_checked_or_illegal (w : Word) :
    (∃ i, decode w = checked (formatOf i) w i ∧ w &&& 0xFF#32 = (opcodeRow i).value) ∨
    (decode w = .error .illegalOpcode ∧ ¬ HasOpcodeRow w) := by
  unfold decode
  split
  case h_19 => exact .inr ⟨rfl, by simp_all [hasOpcodeRow_iff]⟩
  all_goals
    rename_i op
    exact .inl (checked_of_opcode rfl op rfl)

/-- A word matches a row and is that row's command, or has a reserved bit set under a row's opcode byte, or has no row's
opcode byte. -/
theorem decode_cases (w : Word) :
    (∃ i, decode w = .ok i ∧ w &&& (opcodeRow i).mask = (opcodeRow i).value) ∨
    (decode w = .error .reservedBits ∧ HasOpcodeRow w ∧ ¬ MatchesRow w) ∨
    (decode w = .error .illegalOpcode ∧ ¬ HasOpcodeRow w) := by
  obtain ⟨i, found, byte⟩ | illegal := decode_eq_checked_or_illegal w
  · by_cases clear : w &&& reservedMask (formatOf i) = 0#32
    · exact .inl ⟨i, by simp [found, checked, clear], (matches_opcodeRow_iff byte).2 clear⟩
    · have unmatched : ¬ MatchesRow w := by rwa [matchesRow_iff_of_opcode byte, matches_opcodeRow_iff byte]
      exact .inr (.inl ⟨by simp [found, checked, clear], ⟨_, opcodeRow_mem i, byte⟩, unmatched⟩)
  · exact .inr (.inr illegal)

theorem matches_opcodeRow_of_decode {w : Word} {i : Instr} (h : decode w = .ok i) :
    w &&& (opcodeRow i).mask = (opcodeRow i).value := by
  obtain ⟨j, performed, matches_row⟩ | ⟨refused, -⟩ | ⟨refused, -⟩ := decode_cases w
  · cases h.symm.trans performed
    exact matches_row
  · cases h.symm.trans refused
  · cases h.symm.trans refused

/-- Decode reaches "perform" exactly for the words that match a row (R93). -/
theorem decode_ok_iff (w : Word) : (∃ i, decode w = .ok i) ↔ MatchesRow w := by
  constructor
  · rintro ⟨i, performed⟩
    exact ⟨opcodeRow i, opcodeRow_mem i, matches_opcodeRow_of_decode performed⟩
  · intro matched
    obtain ⟨i, performed, -⟩ | ⟨-, -, unmatched⟩ | ⟨-, no_row⟩ := decode_cases w
    · exact ⟨i, performed⟩
    · exact absurd matched unmatched
    · exact absurd matched.hasOpcodeRow no_row

theorem decode_reservedBits_iff (w : Word) : decode w = .error .reservedBits ↔ HasOpcodeRow w ∧ ¬ MatchesRow w := by
  obtain ⟨i, performed, -⟩ | ⟨refused, has_row, unmatched⟩ | ⟨refused, no_row⟩ := decode_cases w
  · simp [performed, (decode_ok_iff w).1 ⟨i, performed⟩]
  · simp [refused, has_row, unmatched]
  · simp [refused, no_row]

theorem decode_illegalOpcode_iff (w : Word) : decode w = .error .illegalOpcode ↔ ¬ HasOpcodeRow w := by
  obtain ⟨i, performed, -⟩ | ⟨refused, has_row, -⟩ | ⟨refused, no_row⟩ := decode_cases w
  · simp [performed, ((decode_ok_iff w).1 ⟨i, performed⟩).hasOpcodeRow]
  · simp [refused, has_row]
  · simp [refused, no_row]

/-! ### Writes to CMD (spec/20_memory.md R68) -/

theorem writeReg_cmd_of_ok {w : Word} {i : Instr} (h : decode w = .ok i) (s : State) :
    writeReg .cmd w s = exec i s := by
  simp only [writeReg, writeCmd, h]

theorem writeReg_cmd_of_error {w : Word} {e : DecodeError} (h : decode w = .error e) (s : State) :
    writeReg .cmd w s = .next (raiseError (decodeErrCode e) s) := by
  simp only [writeReg, writeCmd, h]

/-- Settles O3: `decode_cases` gives the three kinds of word, `row_eq_of_matches_of_opcode` that the row is unique, and
a refused CMD write is `raiseError`. -/
theorem decodeFollowsTheOpcodeTable : Obligations.DecodeFollowsTheOpcodeTable :=
  fun w s => ⟨decode_ok_iff w,
    fun i performed => ⟨opcodeRow_mem i, matches_opcodeRow_of_decode performed⟩,
    fun _ mem _ mem' matches_row matches_row' =>
      row_eq_of_matches_of_opcode mem mem' matches_row (value_eq_of_matches mem' matches_row'),
    decode_reservedBits_iff w,
    decode_illegalOpcode_iff w,
    fun _ performed => writeReg_cmd_of_ok performed s,
    fun refused => writeReg_cmd_of_error refused s,
    fun refused => writeReg_cmd_of_error refused s⟩

/-! ### Illegal and reserved words (R94) -/

/-- The ranges of opcode bytes that R94 lists as illegal; `decode_illegalOpcode_iff_range` ties them to the decoder. -/
abbrev InIllegalRange (op : Nat) : Prop :=
  (4 ≤ op ∧ op ≤ 0x0F) ∨ (0x15 ≤ op ∧ op ≤ 0x1F) ∨ (0x27 ≤ op ∧ op ≤ 0x2F) ∨ 0x32 ≤ op

theorem decode_illegalOpcode_iff_range (w : Word) :
    decode w = .error .illegalOpcode ↔ InIllegalRange (opField w).toNat := by
  rw [decode_illegalOpcode_iff, hasOpcodeRow_iff]
  simp only [InIllegalRange, List.mem_cons, List.not_mem_nil, or_false]
  omega

/-- The four ranges hold 12 + 11 + 9 + 206 bytes. -/
theorem countP_illegalOpcode :
    (List.range 256).countP (fun b => decide (decode (BitVec.ofNat 32 b) = .error .illegalOpcode)) = 238 := by
  have in_range : ∀ b ∈ List.range 256, decide (decode (BitVec.ofNat 32 b) = .error .illegalOpcode) = true ↔
      decide (InIllegalRange b) = true := by
    intro b mem
    have is_byte : b < 256 := List.mem_range.1 mem
    have byte : (opField (BitVec.ofNat 32 b)).toNat = b := by
      simp only [opField, BitVec.extractLsb'_toNat, BitVec.toNat_ofNat, Nat.shiftRight_zero]
      omega
    rw [decide_eq_true_iff, decide_eq_true_iff, decode_illegalOpcode_iff_range, byte]
  rw [List.countP_congr in_range]
  decide +kernel

/-- Further bits of the row's mask under an unchanged opcode byte are reserved bits, and spoil the match. -/
theorem decode_or_reserved {w v : Word} {i : Instr} (performed : decode w = .ok i) (new_bits : w &&& v = 0#32)
    (reserved : v &&& (opcodeRow i).mask ≠ 0#32) (same_op : opField (w ||| v) = opField w) :
    decode (w ||| v) = .error .reservedBits := by
  have matched := matches_opcodeRow_of_decode performed
  have byte : (w ||| v) &&& 0xFF#32 = (opcodeRow i).value := by
    rw [and_opcodeMask, same_op, ← and_opcodeMask, value_eq_of_matches (opcodeRow_mem i) matched]
  rw [decode_reservedBits_iff, matchesRow_iff_of_opcode byte, ← matched]
  refine ⟨⟨_, opcodeRow_mem i, byte⟩, fun matches_row => ?_⟩
  apply reserved
  calc v &&& (opcodeRow i).mask
      = v &&& ((w ||| v) &&& (opcodeRow i).mask) := by
        rw [← BitVec.and_assoc, BitVec.and_or_distrib_left, BitVec.and_self, BitVec.and_comm v w, new_bits,
          BitVec.zero_or]
    _ = w &&& v &&& (opcodeRow i).mask := by rw [matches_row]; ac_rfl
    _ = 0#32 := by rw [new_bits, BitVec.zero_and]

/-- No encoding is a no-op except the word 0 (R94). -/
theorem decode_eq_nop_iff (w : Word) : decode w = .ok .nop ↔ w = 0#32 := by
  constructor
  · intro performed
    have matched : w &&& BitVec.allOnes 32 = 0#32 := matches_opcodeRow_of_decode performed
    rwa [BitVec.and_allOnes] at matched
  · rintro rfl
    decide

/-- Settles O4: the illegal bytes are the four ranges and are counted there, a reserved bit spoils the match, and NOP's
row covers the whole word. -/
theorem illegalAndReservedWordsOnlyRaiseTheirError : Obligations.IllegalAndReservedWordsOnlyRaiseTheirError :=
  ⟨countP_illegalOpcode, fun w s => ⟨(decode_illegalOpcode_iff_range w).symm,
    fun refused => writeReg_cmd_of_error refused s,
    fun _ _ performed new_bits reserved same_op =>
      writeReg_cmd_of_error (decode_or_reserved performed new_bits reserved same_op) s,
    decode_eq_nop_iff w⟩⟩

end Sys2Proof.Machine
end

