-- ==== Sys2Proof/Proofs/FieldArithmetic.lean ====
section
/-! The field GF(2^8) (spec/40_gf_arithmetic.md R120 to R124). Every symbol but 0 is a power of α, and multiplying by
α^i, by the tables or as polynomials, is i doublings. A doubling is linear, so the laws of mul follow from the laws of
repeated doubling. -/

namespace Sys2Proof.Machine

/-! ### One doubling (R120) -/

/-- The doubling step on symbols, in the shift and XOR form that shows it is linear. -/
def doubled (a : Symbol) : Symbol := (a <<< 1) ^^^ (if a.msb then 0x1d#8 else 0#8)

theorem doubled_toNat : ∀ a : Symbol, (doubled a).toNat = timesX a.toNat := by decide +kernel

@[simp] theorem doubled_zero : doubled 0#8 = 0#8 := rfl

theorem doubled_xor (a b : Symbol) : doubled (a ^^^ b) = doubled a ^^^ doubled b := by
  have reduction : (if a.msb ^^ b.msb then 0x1d#8 else 0#8) =
      (if a.msb then 0x1d#8 else 0#8) ^^^ (if b.msb then 0x1d#8 else 0#8) := by
    cases a.msb <;> cases b.msb <;> rfl
  rw [doubled, BitVec.shiftLeft_xor_distrib, BitVec.msb_xor, reduction]
  simp only [doubled]
  ac_rfl

theorem iterate_doubled_zero (i : Nat) : doubled^[i] 0#8 = 0#8 :=
  Function.iterate_fixed doubled_zero i

theorem iterate_doubled_xor (i : Nat) (a b : Symbol) : doubled^[i] (a ^^^ b) = doubled^[i] a ^^^ doubled^[i] b := by
  induction i generalizing a b with
  | zero => rfl
  | succ i ih => simp only [Function.iterate_succ_apply, doubled_xor, ih]

/-! ### The tables (R120 to R122) -/

theorem expTable_mod (i : Nat) : expTable (i % 255) = expTable i := by
  simp only [expTable, Nat.mod_mod]

/-- Each entry of EXP is the doubled one before it, across the end of the period too. -/
theorem expTable_succ (i : Nat) : expTable (i + 1) = doubled (expTable i) := by
  have in_period : ∀ j < 255, expTable (j + 1) = doubled (expTable j) := by decide +kernel
  have step := in_period (i % 255) (Nat.mod_lt i (by decide))
  rwa [← expTable_mod, Nat.mod_add_mod, expTable_mod, expTable_mod] at step

theorem expTable_add (i j : Nat) : expTable (i + j) = doubled^[i] (expTable j) := by
  induction i with
  | zero => rw [Nat.zero_add, Function.iterate_zero_apply]
  | succ i ih => rw [Nat.succ_add, expTable_succ, ih, Function.iterate_succ_apply']

theorem expTable_eq_iterate_doubled (i : Nat) : expTable i = doubled^[i] 1#8 := expTable_add i 0

theorem expTable_ne_zero (i : Nat) : expTable i ≠ 0#8 := by
  have in_period : ∀ j < 255, expTable j ≠ 0#8 := by decide +kernel
  rw [← expTable_mod]
  exact in_period _ (Nat.mod_lt i (by decide))

theorem logTable_expTable (i : Nat) : (logTable (expTable i)).toNat = i % 255 := by
  have in_period : ∀ j < 255, (logTable (expTable j)).toNat = j := by decide +kernel
  rw [← expTable_mod]
  exact in_period _ (Nat.mod_lt i (by decide))

theorem expTable_logTable {a : Symbol} (h : a ≠ 0#8) : expTable (logTable a).toNat = a := by
  have all_symbols : ∀ b : Symbol, b ≠ 0#8 → expTable (logTable b).toNat = b := by decide +kernel
  exact all_symbols a h

/-- Every symbol but 0 is a power of α. -/
theorem exists_expTable {a : Symbol} (h : a ≠ 0#8) : ∃ i < 255, expTable i = a :=
  ⟨(logTable a).toNat % 255, Nat.mod_lt _ (by decide), by rw [expTable_mod, expTable_logTable h]⟩

theorem logTable_lt {a : Symbol} (h : a ≠ 0#8) : (logTable a).toNat < 255 := by
  obtain ⟨i, -, rfl⟩ := exists_expTable h
  rw [logTable_expTable]
  exact Nat.mod_lt i (by decide)

/-- EXP takes the same value at two indices exactly when they agree modulo its period. -/
theorem expTable_inj {i j : Nat} : expTable i = expTable j ↔ i % 255 = j % 255 := by
  constructor
  · intro same
    rw [← logTable_expTable, same, logTable_expTable]
  · intro same
    rw [← expTable_mod, same, expTable_mod]

/-- Settles O8: a step of EXP is a doubling, LOG undoes EXP, and both logarithms of a product are at most 254. -/
theorem expTableIsTheDoublingSequence : Obligations.ExpTableIsTheDoublingSequence := by
  refine ⟨rfl, rfl, fun i _ => ?_, fun i hi j hj same => ?_, fun a ha => exists_expTable ha,
    fun i _ => expTable_ne_zero i, fun i _ _ => (expTable_mod i).symm, rfl, rfl, fun a b ha hb => ?_⟩
  · rw [expTable_succ, doubled_toNat]
  · have same_residue := expTable_inj.1 same
    rwa [Nat.mod_eq_of_lt hi, Nat.mod_eq_of_lt hj] at same_residue
  · have := logTable_lt ha
    have := logTable_lt hb
    omega

/-! ### The product by the tables (R123) -/

/-- Multiplying by α^i is i doublings. -/
theorem gfMul_expTable_left (i : Nat) (b : Symbol) : gfMul (expTable i) b = doubled^[i] b := by
  by_cases hb : b = 0#8
  · rw [hb, gfMul_zero_right, iterate_doubled_zero]
  · obtain ⟨j, -, rfl⟩ := exists_expTable hb
    rw [gfMul_of_ne_zero (expTable_ne_zero i) hb, logTable_expTable, logTable_expTable, ← expTable_add,
      expTable_inj, ← Nat.add_mod]

theorem gfMul_expTable_expTable (i j : Nat) : gfMul (expTable i) (expTable j) = expTable (i + j) := by
  rw [gfMul_expTable_left, expTable_add]

theorem gfMul_comm (a b : Symbol) : gfMul a b = gfMul b a := by
  simp only [gfMul, or_comm, Nat.add_comm]

theorem gfMul_assoc (a b c : Symbol) : gfMul (gfMul a b) c = gfMul a (gfMul b c) := by
  by_cases ha : a = 0#8
  · simp [ha]
  by_cases hb : b = 0#8
  · simp [hb]
  obtain ⟨i, -, rfl⟩ := exists_expTable ha
  obtain ⟨j, -, rfl⟩ := exists_expTable hb
  rw [gfMul_expTable_expTable, gfMul_expTable_left, gfMul_expTable_left, gfMul_expTable_left,
    Function.iterate_add_apply]

theorem gfMul_xor_right (a b c : Symbol) : gfMul a (b ^^^ c) = gfMul a b ^^^ gfMul a c := by
  by_cases ha : a = 0#8
  · simp [ha]
  obtain ⟨i, -, rfl⟩ := exists_expTable ha
  simp only [gfMul_expTable_left, iterate_doubled_xor]

theorem gfMul_one_left (b : Symbol) : gfMul 1#8 b = b := gfMul_expTable_left 0 b

/-- The inverse of α^k is α^(255-k) (R124). -/
theorem gfMul_inverse {a : Symbol} (h : a ≠ 0#8) :
    gfMul a (expTable ((255 - (logTable a).toNat) % 255)) = 1#8 := by
  have lt := logTable_lt h
  calc gfMul a (expTable ((255 - (logTable a).toNat) % 255))
      = gfMul (expTable (logTable a).toNat) (expTable (255 - (logTable a).toNat)) := by
        rw [expTable_mod, expTable_logTable h]
    _ = expTable 255 := by rw [gfMul_expTable_expTable, Nat.add_sub_cancel' lt.le]
    _ = 1#8 := rfl

theorem symbolPower_two (k : Nat) : symbolPower 2#8 k = expTable k := by
  induction k with
  | zero => rfl
  | succ k ih =>
    calc gfMul (expTable 1) (symbolPower 2#8 k)
        = expTable (k + 1) := by rw [ih, gfMul_expTable_expTable, Nat.add_comm]

/-- α is primitive: its powers come back to 1 at the multiples of 255 only. -/
theorem symbolPower_two_eq_one_iff (k : Nat) : symbolPower 2#8 k = 1#8 ↔ k % 255 = 0 := by
  rw [symbolPower_two]
  exact expTable_inj (j := 0)

/-! ### The product of polynomials (R124) -/

/-- `productFrom` on symbols; `productFrom_toNat` ties the two. -/
def hornerFrom (a b : Symbol) : Nat → Symbol → Symbol
  | 0, acc => acc
  | k + 1, acc => hornerFrom a b k (doubled acc ^^^ (if b.toNat.testBit k then a else 0#8))

theorem productFrom_toNat (a b : Symbol) (k : Nat) (acc : Symbol) :
    productFrom a.toNat b.toNat k acc.toNat = (hornerFrom a b k acc).toNat := by
  induction k generalizing acc with
  | zero => rfl
  | succ k ih =>
    have selected : (if b.toNat.testBit k then a else 0#8).toNat = if b.toNat.testBit k then a.toNat else 0 :=
      apply_ite BitVec.toNat _ _ _
    rw [productFrom, hornerFrom, ← ih, BitVec.toNat_xor, doubled_toNat, selected]
    rfl

theorem fieldProduct_eq_hornerFrom (a b : Symbol) : fieldProduct a b = hornerFrom a b 8 0#8 := by
  have on_numbers : productFrom a.toNat b.toNat 8 0 = (hornerFrom a b 8 0#8).toNat := productFrom_toNat a b 8 0#8
  rw [fieldProduct, on_numbers, BitVec.ofNat_toNat, BitVec.setWidth_eq]

/-- Doubling the multiplicand and the sum so far doubles the whole sum. -/
theorem hornerFrom_doubled (a b : Symbol) (k : Nat) (acc : Symbol) :
    hornerFrom (doubled a) b k (doubled acc) = doubled (hornerFrom a b k acc) := by
  induction k generalizing acc with
  | zero => rfl
  | succ k ih => rw [hornerFrom, hornerFrom, ← ih, doubled_xor, apply_ite doubled, doubled_zero]

theorem fieldProduct_doubled_left (a b : Symbol) : fieldProduct (doubled a) b = doubled (fieldProduct a b) := by
  rw [fieldProduct_eq_hornerFrom, fieldProduct_eq_hornerFrom, ← hornerFrom_doubled, doubled_zero]

theorem hornerFrom_zero_left (b : Symbol) (k : Nat) : hornerFrom 0#8 b k 0#8 = 0#8 := by
  induction k with
  | zero => rfl
  | succ k ih => rw [hornerFrom, doubled_zero, ite_self, BitVec.xor_self, ih]

theorem fieldProduct_zero_left (b : Symbol) : fieldProduct 0#8 b = 0#8 := by
  rw [fieldProduct_eq_hornerFrom, hornerFrom_zero_left]

theorem fieldProduct_one_left : ∀ b : Symbol, fieldProduct 1#8 b = b := by decide +kernel

/-- Multiplying by α^i as polynomials is i doublings, as it is by the tables. -/
theorem fieldProduct_expTable_left (i : Nat) (b : Symbol) : fieldProduct (expTable i) b = doubled^[i] b := by
  induction i with
  | zero => exact fieldProduct_one_left b
  | succ i ih => rw [expTable_succ, fieldProduct_doubled_left, ih, Function.iterate_succ_apply']

theorem gfMul_eq_fieldProduct (a b : Symbol) : gfMul a b = fieldProduct a b := by
  by_cases ha : a = 0#8
  · rw [ha, gfMul_zero_left, fieldProduct_zero_left]
  · obtain ⟨i, -, rfl⟩ := exists_expTable ha
    rw [gfMul_expTable_left, fieldProduct_expTable_left]

/-- Settles O9: both products by α^i are i doublings, and the laws are those of repeated doubling. -/
theorem gfMulIsTheFieldProduct : Obligations.GfMulIsTheFieldProduct := by
  refine ⟨gfMul_eq_fieldProduct, gfMul_comm, gfMul_assoc, gfMul_xor_right,
    fun b => ⟨gfMul_one_left b, gfMul_zero_left b⟩, fun _ ha => gfMul_inverse ha,
    (symbolPower_two_eq_one_iff 255).2 rfl, fun k pos lt one => ?_⟩
  have := (symbolPower_two_eq_one_iff k).1 one
  omega

end Sys2Proof.Machine
end

