-- ==== Sys2Proof/Proofs/ReedSolomon.lean ====
section
/-! Reed-Solomon over GF(2^8) (spec/41_reed_solomon.md R140 to R150). Evaluation at α^i turns sums and products of
polynomials into sums and products of symbols, so the generator, a product of linear factors, vanishes at its roots.
Division is linear and undoes one row of the product, so the message and its remainder are the multiple of the
generator, and the only one with that message. -/

namespace Sys2Proof.Machine

/-! ### The ECC count (R140, R146) -/

theorem eccCount_eq_four_iff (len : Nat) : eccCount len = 4 ↔ len ≤ 16 := by
  unfold eccCount
  omega

/-- Above 4 the count is the quarter of the length, rounded up. -/
theorem eccCount_eq_iff {len k : Nat} (h : 4 < k) : eccCount len = k ↔ 4 * (k - 1) < len ∧ len ≤ 4 * k := by
  unfold eccCount
  omega

theorem le_four_mul_eccCount (len : Nat) : len ≤ 4 * eccCount len := by
  unfold eccCount
  omega

theorem eccCount_le_iff {len k : Nat} (h : 4 ≤ k) : eccCount len ≤ k ↔ len ≤ 4 * k := by
  unfold eccCount
  omega

/-- The count of an 8-bit length is far below 2^16, so RESULT holds it whole. -/
theorem setResult_eccCount_toNat {len : Nat} (byte : len < 256) (s : State) :
    (setResult (eccCount len) s).result.toNat = eccCount len := by
  have small : eccCount len ≤ 64 := (eccCount_le_iff (by decide)).2 byte.le
  rw [setResult_result, BitVec.toNat_ofNat, Nat.mod_eq_of_lt (by omega)]

/-- Settles O13: each range of lengths is `eccCount_eq_iff` at its count, and RESULT holds the count whole. -/
theorem eccCountIsAQuarterAtLeastFour : Obligations.EccCountIsAQuarterAtLeastFour := by
  refine ⟨fun len => ⟨le_max_left 4 _, le_four_mul_eccCount len, fun above => ((eccCount_eq_iff above).1 rfl).1⟩,
    fun len => (eccCount_eq_four_iff len).2, ?_, ?_, ?_, ?_, ?_, ?_,
    fun len _ short => (eccCount_le_iff (by decide)).2 short,
    fun len s byte => ⟨succeed (setResult (eccCount len) s), rfl, setResult_eccCount_toNat byte s, rfl⟩⟩
  all_goals exact fun len low high => (eccCount_eq_iff (by decide)).2 ⟨low, high⟩

/-! ### Sums of symbols and of polynomials -/

theorem gfMul_xor_left (a b c : Symbol) : gfMul (a ^^^ b) c = gfMul a c ^^^ gfMul b c := by
  rw [gfMul_comm, gfMul_xor_right, gfMul_comm c, gfMul_comm c]

theorem gfMul_one_right (a : Symbol) : gfMul a 1#8 = a := by
  rw [gfMul_comm, gfMul_one_left]

/-- The sum of two polynomials with equally many entries; `polyMul_cons` ties it to the product. -/
def polyAdd (p q : List Symbol) : List Symbol := List.zipWith (· ^^^ ·) p q

@[simp] theorem polyAdd_nil_left (q : List Symbol) : polyAdd [] q = [] := rfl

@[simp] theorem polyAdd_nil_right (p : List Symbol) : polyAdd p [] = [] := List.zipWith_nil_right

@[simp] theorem polyAdd_cons_cons (a b : Symbol) (p q : List Symbol) :
    polyAdd (a :: p) (b :: q) = (a ^^^ b) :: polyAdd p q := rfl

@[simp] theorem polyAdd_length (p q : List Symbol) : (polyAdd p q).length = min p.length q.length :=
  List.length_zipWith

theorem polyAdd_zeros_left {p : List Symbol} {k : Nat} (h : p.length = k) :
    polyAdd (List.replicate k 0#8) p = p := by
  induction p generalizing k with
  | nil => simp
  | cons a p ih =>
    subst h
    simp [List.replicate_succ, ih]

theorem polyAdd_zeros_right {p : List Symbol} {k : Nat} (h : p.length = k) :
    polyAdd p (List.replicate k 0#8) = p := by
  rw [polyAdd, List.zipWith_comm_of_comm BitVec.xor_comm]
  exact polyAdd_zeros_left h

/-- In characteristic 2 a sum is zero only of equals. -/
theorem polyAdd_eq_zeros_iff {p q : List Symbol} {n : Nat} (hp : p.length = n) (hq : q.length = n) :
    polyAdd p q = List.replicate n 0#8 ↔ p = q := by
  subst hp
  induction p generalizing q with
  | nil => simp [List.length_eq_zero_iff.1 hq]
  | cons a p ih =>
    obtain ⟨b, q, rfl, same_length⟩ := List.length_eq_succ_iff.1 hq
    simp [List.replicate_succ, ih same_length]

/-! ### Products of polynomials -/

theorem polyMul_nil (b : Symbol) (q : List Symbol) : polyMul [] (b :: q) = List.replicate q.length 0#8 := rfl

theorem polyMul_cons (a : Symbol) (p q : List Symbol) :
    polyMul (a :: p) q = polyAdd (q.map (gfMul a) ++ List.replicate p.length 0#8) (0#8 :: polyMul p q) := rfl

@[simp] theorem polyMul_length (p : List Symbol) (b : Symbol) (q : List Symbol) :
    (polyMul p (b :: q)).length = p.length + q.length := by
  induction p with
  | nil => simp [polyMul_nil]
  | cons a p ih => simp [polyMul_cons, ih]; omega

/-- Leading zeros of a factor stay in front of the product. -/
theorem polyMul_zeros_append (d : Nat) (p : List Symbol) (b : Symbol) (q : List Symbol) :
    polyMul (List.replicate d 0#8 ++ p) (b :: q) = List.replicate d 0#8 ++ polyMul p (b :: q) := by
  have zero_row : ∀ l : List Symbol, l.map (gfMul 0#8) = List.replicate l.length 0#8 :=
    fun _ => List.map_eq_replicate_iff.2 fun a _ => gfMul_zero_left a
  induction d with
  | zero => rfl
  | succ d ih =>
    simp only [List.replicate_succ, List.cons_append, polyMul_cons, zero_row, ih, ← List.replicate_add]
    exact polyAdd_zeros_left (by simp; omega)

/-! ### Evaluation at α^i (R145) -/

theorem syndrome_nil (i : Nat) : syndrome [] i = 0#8 := rfl

/-- Horner's rule, started at any symbol. -/
theorem horner_from (c : List Symbol) (i : Nat) (acc : Symbol) :
    c.foldl (fun acc sym => gfMul acc (expTable i) ^^^ sym) acc =
      gfMul acc (expTable (i * c.length)) ^^^ syndrome c i := by
  induction c generalizing acc with
  | nil =>
    have one : expTable 0 = 1#8 := rfl
    rw [List.foldl_nil, List.length_nil, Nat.mul_zero, one, gfMul_one_right, syndrome_nil, BitVec.xor_zero]
  | cons a c ih =>
    have power : expTable (i * (c.length + 1)) = gfMul (expTable i) (expTable (i * c.length)) := by
      rw [gfMul_expTable_expTable, Nat.mul_succ, Nat.add_comm]
    rw [syndrome, List.foldl_cons, List.foldl_cons, ih, ih, List.length_cons, power]
    simp only [gfMul_xor_left, gfMul_zero_left, BitVec.zero_xor, gfMul_assoc, BitVec.xor_assoc]

theorem syndrome_cons (a : Symbol) (c : List Symbol) (i : Nat) :
    syndrome (a :: c) i = gfMul a (expTable (i * c.length)) ^^^ syndrome c i := by
  rw [syndrome, List.foldl_cons, gfMul_zero_left, BitVec.zero_xor, horner_from]

theorem syndrome_zeros (k i : Nat) : syndrome (List.replicate k 0#8) i = 0#8 := by
  induction k with
  | zero => rfl
  | succ k ih => rw [List.replicate_succ, syndrome_cons, ih, gfMul_zero_left, BitVec.xor_self]

theorem syndrome_append_zeros (c : List Symbol) (k i : Nat) :
    syndrome (c ++ List.replicate k 0#8) i = gfMul (syndrome c i) (expTable (i * k)) := by
  induction c with
  | nil => rw [List.nil_append, syndrome_zeros, syndrome_nil, gfMul_zero_left]
  | cons a c ih =>
    rw [List.cons_append, syndrome_cons, syndrome_cons, ih, gfMul_xor_left, gfMul_assoc, gfMul_expTable_expTable,
      ← Nat.mul_add, List.length_append, List.length_replicate]

theorem syndrome_map_gfMul (a : Symbol) (c : List Symbol) (i : Nat) :
    syndrome (c.map (gfMul a)) i = gfMul a (syndrome c i) := by
  induction c with
  | nil => exact (gfMul_zero_right a).symm
  | cons b c ih => rw [List.map_cons, syndrome_cons, syndrome_cons, ih, gfMul_xor_right, gfMul_assoc, List.length_map]

theorem syndrome_polyAdd {p q : List Symbol} (h : p.length = q.length) (i : Nat) :
    syndrome (polyAdd p q) i = syndrome p i ^^^ syndrome q i := by
  induction p generalizing q with
  | nil => simp [List.length_eq_zero_iff.1 h.symm, syndrome_nil]
  | cons a p ih =>
    obtain ⟨b, q, rfl, same_length⟩ := List.length_eq_succ_iff.1 h.symm
    rw [polyAdd_cons_cons, syndrome_cons, syndrome_cons, syndrome_cons, ih same_length.symm, gfMul_xor_left,
      polyAdd_length, same_length, Nat.min_self]
    ac_rfl

/-- The value of a product is the product of the values. -/
theorem syndrome_polyMul (p : List Symbol) (b : Symbol) (q : List Symbol) (i : Nat) :
    syndrome (polyMul p (b :: q)) i = gfMul (syndrome p i) (syndrome (b :: q) i) := by
  induction p with
  | nil => rw [polyMul_nil, syndrome_zeros, syndrome_nil, gfMul_zero_left]
  | cons a p ih =>
    have row : syndrome ((b :: q).map (gfMul a) ++ List.replicate p.length 0#8) i =
        gfMul (gfMul a (expTable (i * p.length))) (syndrome (b :: q) i) := by
      rw [syndrome_append_zeros, syndrome_map_gfMul, gfMul_assoc, gfMul_assoc, gfMul_comm (syndrome _ i)]
    rw [polyMul_cons, syndrome_polyAdd (by simp; omega), row, syndrome_cons 0#8, gfMul_zero_left, BitVec.zero_xor, ih,
      syndrome_cons a, gfMul_xor_left]

/-! ### The generator (R141, R142) -/

theorem ofNat_alphaPower (i : Nat) : BitVec.ofNat 8 (alphaPower i) = expTable i := by
  have on_numbers : alphaPower i = (expTable i).toNat := by
    induction i with
    | zero => rfl
    | succ i ih => rw [alphaPower, ih, expTable_succ, doubled_toNat]
  rw [on_numbers, BitVec.ofNat_toNat, BitVec.setWidth_eq]

theorem rootProduct_succ (n : Nat) : rootProduct (n + 1) = polyMul (rootProduct n) [1#8, expTable n] := by
  rw [rootProduct, ofNat_alphaPower]

/-- A pass of R141 is the product with (x + e) without its leading entry, which is the leading entry of the factor. -/
theorem polyMul_linear (a e : Symbol) (p : List Symbol) :
    polyMul (a :: p) [1#8, e] = a :: multiplyByRoot e (a :: p) := by
  induction p generalizing a with
  | nil => simp [polyMul_cons, polyMul_nil, multiplyByRoot, gfMul_one_right]
  | cons b p ih =>
    have rest : polyAdd (List.replicate (p.length + 1) 0#8) (multiplyByRoot e (b :: p)) = multiplyByRoot e (b :: p) :=
      polyAdd_zeros_left (multiplyByRoot_length e (b :: p))
    have pass : multiplyByRoot e (a :: b :: p) = (gfMul a e ^^^ b) :: multiplyByRoot e (b :: p) := rfl
    simp [polyMul_cons a, ih, gfMul_one_right, rest, pass]

theorem multiplyByRoot_eq_tail_polyMul (e : Symbol) (p : List Symbol) :
    multiplyByRoot e p = (polyMul p [1#8, e]).tail := by
  cases p with
  | nil => rfl
  | cons a p => rw [polyMul_linear, List.tail_cons]

theorem constantOne_eq_tail (n : Nat) : constantOne n = (List.replicate n 0#8 ++ [1#8]).tail := by
  cases n with
  | zero => rfl
  | succ n =>
    have last : constantOne (n + 1) = List.replicate n 0#8 ++ [1#8] := by simp [constantOne, List.replicate_succ']
    rw [last, List.replicate_succ, List.cons_append, List.tail_cons]

/-- R141's working vector after k passes: the product of the first k factors, right-aligned in n + 1 entries, without
the first of these. -/
theorem generator_passes {n k : Nat} (h : k ≤ n) :
    (List.range k).foldl (fun g i => multiplyByRoot (expTable i) g) (constantOne n) =
      (List.replicate (n - k) 0#8 ++ rootProduct k).tail := by
  induction k with
  | zero => exact constantOne_eq_tail n
  | succ k ih =>
    obtain ⟨d, rfl⟩ := Nat.exists_eq_add_of_le h
    have before : k + 1 + d - k = d + 1 := by omega
    have after : k + 1 + d - (k + 1) = d := by omega
    rw [List.range_succ, List.foldl_append, ih (by omega), before, after, List.replicate_succ, List.cons_append,
      List.tail_cons, List.foldl_cons, List.foldl_nil, multiplyByRoot_eq_tail_polyMul, polyMul_zeros_append,
      rootProduct_succ]

theorem head?_rootProduct (n : Nat) : (rootProduct n).head? = some 1#8 := by
  induction n with
  | zero => rfl
  | succ n ih =>
    obtain ⟨p, product⟩ := List.head?_eq_some_iff.1 ih
    rw [rootProduct_succ, product, polyMul_linear, List.head?_cons]

/-- The generator with its leading 1 is the product of its linear factors (R142). -/
theorem cons_generator (n : Nat) : 1#8 :: generator n = rootProduct n := by
  obtain ⟨p, product⟩ := List.head?_eq_some_iff.1 (head?_rootProduct n)
  rw [generator, generator_passes (Nat.le_refl n), Nat.sub_self, List.replicate_zero, List.nil_append, product,
    List.tail_cons]

theorem syndrome_rootProduct {n i : Nat} (h : i < n) : syndrome (rootProduct n) i = 0#8 := by
  induction n with
  | zero => exact absurd h (Nat.not_lt_zero i)
  | succ n ih =>
    rw [rootProduct_succ, syndrome_polyMul]
    rcases Nat.lt_succ_iff_lt_or_eq.1 h with earlier | rfl
    · rw [ih earlier, gfMul_zero_left]
    · have root : syndrome [1#8, expTable i] i = 0#8 := by
        simp [syndrome, gfMul_one_left]
      rw [root, gfMul_zero_right]

/-- The roots of the generator are α^0 … α^(n-1) (R142). -/
theorem syndrome_cons_generator {n i : Nat} (h : i < n) : syndrome (1#8 :: generator n) i = 0#8 := by
  rw [cons_generator, syndrome_rootProduct h]

/-- Settles O14: each pass of R141 is one factor of the product, and each factor has its root. -/
theorem generatorIsTheProductOverItsRoots : Obligations.GeneratorIsTheProductOverItsRoots :=
  ⟨fun n => ⟨cons_generator n, fun _ => syndrome_cons_generator⟩, by decide +kernel⟩

/-! ### Division (R143) -/

@[simp] theorem xorInto_nil_right (p : List Symbol) : xorInto p [] = p := by
  cases p <;> rfl

@[simp] theorem xorInto_nil_left (q : List Symbol) : xorInto [] q = [] := by
  cases q <;> rfl

@[simp] theorem xorInto_cons_cons (a b : Symbol) (p q : List Symbol) :
    xorInto (a :: p) (b :: q) = (a ^^^ b) :: xorInto p q := rfl

theorem xorInto_xorInto_cancel (p q : List Symbol) : xorInto (xorInto p q) q = p := by
  induction p generalizing q with
  | nil => simp
  | cons a p ih => cases q with
    | nil => simp
    | cons b q => simp [ih]

/-- The list that is XORed in is, in a sum, one with zeros after it. -/
theorem polyAdd_append_zeros {u v : List Symbol} {k : Nat} (h : v.length = u.length + k) :
    polyAdd (u ++ List.replicate k 0#8) v = xorInto v u := by
  induction u generalizing v with
  | nil =>
    rw [List.nil_append, polyAdd_zeros_left (by simpa using h), xorInto_nil_right]
  | cons a u ih =>
    obtain ⟨b, v, rfl, length⟩ := List.length_eq_succ_iff.1 (h.trans (Nat.succ_add ..))
    rw [List.cons_append, polyAdd_cons_cons, ih length, xorInto_cons_cons, BitVec.xor_comm]

theorem xorInto_map_gfMul_zero (p g : List Symbol) : xorInto p (g.map (gfMul 0#8)) = p := by
  induction p generalizing g with
  | nil => simp
  | cons a p ih => cases g with
    | nil => simp
    | cons b g => simp [ih]

/-- The test for a zero coefficient in a pass of R143 only saves work. -/
theorem divideOnce_cons (g : List Symbol) (a : Symbol) (rest : List Symbol) :
    divideOnce g (a :: rest) = xorInto rest (g.map (gfMul a)) := by
  by_cases zero : a = 0#8
  · rw [zero, xorInto_map_gfMul_zero, divideOnce, if_pos rfl]
  · rw [divideOnce, if_neg zero]

/-- The product with a monic polynomial: its first row is XORed into the rest of the product. -/
theorem polyMul_cons_monic (a : Symbol) (q g : List Symbol) :
    polyMul (a :: q) (1#8 :: g) = a :: xorInto (polyMul q (1#8 :: g)) (g.map (gfMul a)) := by
  rw [polyMul_cons, List.map_cons, List.cons_append, polyAdd_cons_cons, gfMul_one_right, BitVec.xor_zero,
    polyAdd_append_zeros (by simp; omega)]

/-- A pass of division undoes the first row of a product. -/
theorem polyMul_cons_eq_iff {a b : Symbol} {q g poly : List Symbol} :
    polyMul (a :: q) (1#8 :: g) = b :: poly ↔ a = b ∧ polyMul q (1#8 :: g) = divideOnce g (b :: poly) := by
  rw [polyMul_cons_monic, List.cons.injEq, divideOnce_cons]
  refine and_congr_right fun same => ?_
  subst same
  constructor
  · rintro rfl
    rw [xorInto_xorInto_cancel]
  · intro rest
    rw [rest, xorInto_xorInto_cancel]

/-- What division leaves is zero exactly on the multiples of the divisor. -/
theorem divideTimes_eq_zeros_iff {g : List Symbol} {k : Nat} {poly : List Symbol} (h : poly.length = k + g.length) :
    divideTimes g k poly = List.replicate g.length 0#8 ↔ ∃ q, q.length = k ∧ polyMul q (1#8 :: g) = poly := by
  induction k generalizing poly with
  | zero =>
    simp only [divideTimes, List.length_eq_zero_iff, exists_eq_left, polyMul_nil]
    exact eq_comm
  | succ k ih =>
    obtain ⟨b, rest, rfl, length⟩ := List.length_eq_succ_iff.1 (h.trans (Nat.succ_add ..))
    rw [divideTimes, ih (by rw [divideOnce_length, List.length_cons, length, Nat.add_sub_cancel])]
    constructor
    · rintro ⟨q, rfl, multiple⟩
      exact ⟨b :: q, rfl, polyMul_cons_eq_iff.2 ⟨rfl, multiple⟩⟩
    · rintro ⟨_, length, multiple⟩
      obtain ⟨a, q, rfl, rfl⟩ := List.length_eq_succ_iff.1 length
      exact ⟨q, rfl, (polyMul_cons_eq_iff.1 multiple).2⟩

theorem xorInto_polyAdd {p q : List Symbol} (h : p.length = q.length) (a b : Symbol) (g : List Symbol) :
    xorInto (polyAdd p q) (g.map (gfMul (a ^^^ b))) =
      polyAdd (xorInto p (g.map (gfMul a))) (xorInto q (g.map (gfMul b))) := by
  induction p generalizing q g with
  | nil => simp
  | cons c p ih =>
    obtain ⟨d, q, rfl, same_length⟩ := List.length_eq_succ_iff.1 h.symm
    cases g with
    | nil => simp
    | cons e g =>
      simp only [List.map_cons, polyAdd_cons_cons, xorInto_cons_cons, ih same_length.symm, gfMul_xor_left]
      congr 1
      ac_rfl

theorem divideOnce_polyAdd (g : List Symbol) {p q : List Symbol} (h : p.length = q.length) :
    divideOnce g (polyAdd p q) = polyAdd (divideOnce g p) (divideOnce g q) := by
  cases p with
  | nil => simp [divideOnce]
  | cons a p =>
    obtain ⟨b, q, rfl, same_length⟩ := List.length_eq_succ_iff.1 h.symm
    rw [polyAdd_cons_cons, divideOnce_cons, divideOnce_cons, divideOnce_cons, xorInto_polyAdd same_length.symm]

/-- Division is linear: dividing a sum divides the terms. -/
theorem divideTimes_polyAdd (g : List Symbol) (k : Nat) {p q : List Symbol} (h : p.length = q.length) :
    divideTimes g k (polyAdd p q) = polyAdd (divideTimes g k p) (divideTimes g k q) := by
  induction k generalizing p q with
  | zero => rfl
  | succ k ih =>
    simp only [divideTimes]
    rw [divideOnce_polyAdd g h, ih (by simp [h])]

/-- Passes over leading zeros change nothing. -/
theorem divideTimes_zeros_append (g r : List Symbol) (k : Nat) :
    divideTimes g k (List.replicate k 0#8 ++ r) = r := by
  induction k with
  | zero => rfl
  | succ k ih => rw [List.replicate_succ, List.cons_append, divideTimes, divideOnce, if_pos rfl, ih]

/-! ### The remainder (R144) -/

theorem append_eq_polyAdd (m r : List Symbol) :
    m ++ r = polyAdd (m ++ List.replicate r.length 0#8) (List.replicate m.length 0#8 ++ r) := by
  have front : polyAdd m (List.replicate m.length 0#8) = m := polyAdd_zeros_right rfl
  have back : polyAdd (List.replicate r.length 0#8) r = r := polyAdd_zeros_left rfl
  rw [polyAdd, List.zipWith_append (by simp)]
  exact (congrArg₂ (· ++ ·) front back).symm

theorem divideTimes_append {m r g : List Symbol} (h : r.length = g.length) :
    divideTimes g m.length (m ++ r) = polyAdd (remainder m g) r := by
  rw [append_eq_polyAdd, divideTimes_polyAdd g m.length (by simp), divideTimes_zeros_append, h, remainder]

/-- Of all tails of the divisor's degree, the remainder is the one that makes the message a multiple. -/
theorem exists_polyMul_eq_append_iff {m r g : List Symbol} (h : r.length = g.length) :
    (∃ q, q.length = m.length ∧ polyMul q (1#8 :: g) = m ++ r) ↔ remainder m g = r := by
  rw [← divideTimes_eq_zeros_iff (by simp [h]), divideTimes_append h, polyAdd_eq_zeros_iff (remainder_length m g) h]

/-- Settles O15: the multiples of the generator are what division leaves nothing of, and division is linear. -/
theorem remainderIsTheMessageModuloTheGenerator : Obligations.RemainderIsTheMessageModuloTheGenerator := by
  intro m n _
  have length : (remainder m (generator n)).length = (generator n).length := remainder_length m (generator n)
  refine ⟨length.trans (generator_length n), (exists_polyMul_eq_append_iff length).2 rfl,
    fun q r hq hr multiple => ?_⟩
  exact ((exists_polyMul_eq_append_iff (hr.trans (generator_length n).symm)).1 ⟨q, hq, multiple⟩).symm

/-! ### Codewords (R150) -/

/-- A codeword is a multiple of the generator, so it vanishes at the generator's roots. -/
theorem syndrome_append_remainder (m : List Symbol) {n i : Nat} (h : i < n) :
    syndrome (m ++ remainder m (generator n)) i = 0#8 := by
  obtain ⟨q, -, multiple⟩ := (exists_polyMul_eq_append_iff (remainder_length m (generator n))).2 rfl
  rw [← multiple, syndrome_polyMul, syndrome_cons_generator h, gfMul_zero_right]

/-- Settles O16: the syndrome of a multiple of the generator is a multiple of the generator's own, which is 0. -/
theorem everyCodewordHasZeroSyndromes : Obligations.EveryCodewordHasZeroSyndromes :=
  fun m _ _ _ _ _ _ root => syndrome_append_remainder m root

end Sys2Proof.Machine
end

