-- ==== Sys2Proof/Proofs/ChunkPlanner.lean ====
section
/-! The plan of spec/42_chunk_planner.md R170: how many chunks a payload has, how long each is, and that they put it
together again. -/

namespace Sys2Proof.Machine

/-! ### The plan's numbers -/

/-- The plan has exactly the chunks that start inside the payload. -/
theorem lt_chunkCount_iff {len k : Nat} : k < chunkCount len ↔ chunkOffset k < len := by
  simp only [chunkCount, chunkOffset, Config.msgCap]
  omega

theorem le_chunkOffset_chunkCount (len : Nat) : len ≤ chunkOffset (chunkCount len) :=
  Nat.le_of_not_lt (mt lt_chunkCount_iff.2 (Nat.lt_irrefl _))

/-- Each chunk starts where a full chunk before it would end. -/
theorem chunkOffset_succ (k : Nat) : chunkOffset (k + 1) = chunkOffset k + Config.msgCap := rfl

theorem chunkLen_le (len k : Nat) : chunkLen len k ≤ Config.msgCap := Nat.min_le_left _ _

theorem chunkLen_pos {len k : Nat} (h : k < chunkCount len) : 0 < chunkLen len k :=
  Nat.lt_min.2 ⟨by decide, Nat.sub_pos_of_lt (lt_chunkCount_iff.1 h)⟩

theorem chunkOffset_add_chunkLen_le {len k : Nat} (h : k < chunkCount len) :
    chunkOffset k + chunkLen len k ≤ len := by
  have start : chunkOffset k < len := lt_chunkCount_iff.1 h
  have fits : chunkLen len k ≤ len - chunkOffset k := Nat.min_le_right _ _
  omega

/-- A chunk with another one after it is full. -/
theorem chunkLen_of_succ_lt {len k : Nat} (h : k + 1 < chunkCount len) : chunkLen len k = Config.msgCap := by
  have next_start : chunkOffset k + Config.msgCap < len := lt_chunkCount_iff.1 h
  exact Nat.min_eq_left (by omega)

/-- The last chunk holds what the full ones leave. -/
theorem chunkLen_of_succ_eq {len k : Nat} (h : k + 1 = chunkCount len) : chunkLen len k = len - chunkOffset k := by
  have all_covered : len ≤ chunkOffset (k + 1) := h ▸ le_chunkOffset_chunkCount len
  rw [chunkOffset_succ] at all_covered
  exact Nat.min_eq_right (by omega)

/-! ### The chunks themselves -/

/-- The chunk's length cuts at the payload's end, where taking up to 40 symbols stops by itself. -/
theorem take_chunkLen_drop (payload : List Symbol) (k : Nat) :
    (payload.drop (chunkOffset k)).take (chunkLen payload.length k) =
      (payload.drop (chunkOffset k)).take Config.msgCap := by
  rw [chunkLen, ← List.length_drop, ← List.take_eq_take_min]

/-- The first n chunks, in index order, are the payload up to the start of the next one. -/
theorem flatMap_chunks_eq_take (payload : List Symbol) (n : Nat) :
    (List.range n).flatMap (fun k => (payload.drop (chunkOffset k)).take (chunkLen payload.length k)) =
      payload.take (chunkOffset n) := by
  induction n with
  | zero => rfl
  | succ n ih =>
    rw [List.range_succ, List.flatMap_append, ih, List.flatMap_singleton, take_chunkLen_drop, chunkOffset_succ,
      List.take_add]

/-- Settles O22: a prefix of the chunks is a prefix of the payload, and the plan's last chunk reaches its end. -/
theorem chunksAreThePayload : Obligations.ChunksAreThePayload := by
  refine ⟨fun payload => ?concatenation, fun _ => rfl, fun len k h => ?lengths, by decide, by decide, by decide,
    by decide, by decide⟩
  case concatenation =>
    rw [flatMap_chunks_eq_take, List.take_of_length_le (le_chunkOffset_chunkCount payload.length)]
  case lengths =>
    refine ⟨rfl, rfl, chunkLen_pos h, chunkLen_le len k, chunkOffset_add_chunkLen_le h, chunkLen_of_succ_lt,
      fun last => ?_⟩
    rw [chunkLen_of_succ_eq last, ← last]
    rfl

end Sys2Proof.Machine
end

