-- ==== Sys2Proof/Proofs/ColumnWriter.lean ====
section
/-! The column function of spec/43_column_writer.md R190: a column is its meta form with a mask of the position XORed on
(R191), so the same mask takes it off again (R195). -/

namespace Sys2Proof.Machine

/-! ### The masking condition -/

@[simp] theorem inverted_meta (x r : Nat) : inverted x r true = false := rfl

/-- A data column is masked in the rows of its own parity. -/
theorem inverted_data (x r : Nat) : inverted x r false = decide (r % 2 = x % 2) := by
  have same_parity : (r + x) % 2 = 0 ↔ r % 2 = x % 2 := by omega
  rw [inverted, Bool.not_false, Bool.true_and, Bool.beq_eq_decide_eq, decide_eq_decide.2 same_parity]

/-- The masking condition of R190 at all eight rows, as R191 writes it: the two clock rows are never masked. -/
def positionMask (x : Nat) (isMeta : Bool) : Column :=
  if isMeta then 0#8 else if x % 2 = 0 then 0x54#8 else 0x2A#8

theorem positionMask_getLsbD (x : Nat) (m : Bool) {r : Nat} (h : r < 8) :
    (positionMask x m).getLsbD r = (decide (1 ≤ r ∧ r ≤ 6) && inverted x r m) := by
  cases m with
  | true => simp [positionMask]
  | false =>
    rw [inverted_data]
    rcases Nat.mod_two_eq_zero_or_one x with parity | parity <;>
      simp only [positionMask, parity] <;> interval_cases r <;> rfl

/-! ### The closed form (R191) -/

/-- The base byte holds the clock bit of the position, the value in rows 1 to 4, and row 5. -/
theorem columnBase_getLsbD (x : Nat) (v : BitVec 4) {r : Nat} (h : r < 8) :
    (columnBase x v).getLsbD r = columnRow x v true r := by
  rcases Nat.mod_two_eq_zero_or_one x with parity | parity <;>
    interval_cases r <;> simp [columnRow, columnBase, parity]

/-- Masking flips the rows between the clock rows where the masking condition holds. -/
theorem columnRow_eq_xor (x : Nat) (v : BitVec 4) (m : Bool) {r : Nat} (h : r < 8) :
    columnRow x v m r = xor (columnRow x v true r) (decide (1 ≤ r ∧ r ≤ 6) && inverted x r m) := by
  interval_cases r <;> simp [columnRow]

/-- A column is its base byte with the position's mask XORed on. -/
theorem columnOf_eq_xor (x : Nat) (v : BitVec 4) (m : Bool) :
    columnOf x v m = columnBase x v ^^^ positionMask x m := by
  apply BitVec.eq_of_getLsbD_eq
  intro r hr
  rw [BitVec.getLsbD_xor, columnOf_row x v m hr, columnBase_getLsbD x v hr, positionMask_getLsbD x m hr,
    columnRow_eq_xor x v m hr]

/-- Row 5 is set, and flipped in an odd column. -/
theorem columnOf_row_five (x : Nat) (v : BitVec 4) : (columnOf x v false).getLsbD 5 = decide (x % 2 = 0) := by
  rw [columnOf_row x v false (by decide), columnRow, inverted_data, Bool.true_xor, ← decide_not, decide_eq_decide]
  omega

/-- Row 6 is clear, and flipped in an even column. -/
theorem columnOf_row_six (x : Nat) (v : BitVec 4) : (columnOf x v false).getLsbD 6 = decide (x % 2 = 0) := by
  rw [columnOf_row x v false (by decide), columnRow, inverted_data, Bool.false_xor, decide_eq_decide]
  omega

/-- Settles O25: the closed form is the mask XORed onto the base byte, and the consequences are single rows of it. -/
theorem columnHasTheClosedForm : Obligations.ColumnHasTheClosedForm := by
  refine ⟨fun x v => ⟨?meta_form, columnOf_eq_xor x v false, columnOf_row_five x v, columnOf_row_six x v,
    columnOf_row x v true (by decide), columnOf_row x v true (by decide), fun m => ⟨?row_zero, ?row_seven⟩⟩,
    by decide, by decide, by decide, by decide⟩
  case meta_form => exact (columnOf_eq_xor x v true).trans BitVec.xor_zero
  case row_zero => exact (columnOf_row x v m (by decide)).trans (Bool.beq_eq_decide_eq _ _)
  case row_seven => exact (columnOf_row x v m (by decide)).trans (Bool.beq_eq_decide_eq _ _)

/-! ### Taking the mask off (R195) -/

/-- Bits 4:1 of a column byte, where the base byte holds the value. -/
def valueBits (c : Column) : BitVec 8 := (c >>> 1) &&& 0x0F#8

theorem valueBits_xor (c d : Column) : valueBits (c ^^^ d) = valueBits c ^^^ valueBits d := by
  apply BitVec.eq_of_getLsbD_eq
  simp [valueBits, Bool.and_xor_distrib_right]

theorem valueBits_columnBase (x : Nat) (v : BitVec 4) : valueBits (columnBase x v) = v.setWidth 8 := by
  rcases Nat.mod_two_eq_zero_or_one x with parity | parity <;>
    simp only [columnBase, parity] <;> revert v <;> decide

theorem valueBits_positionMask (x : Nat) (m : Bool) :
    valueBits (positionMask x m) = if m then 0x0#8 else if x % 2 = 0 then 0xA#8 else 0x5#8 := by
  rw [positionMask, apply_ite valueBits, apply_ite valueBits]
  rfl

/-- Settles O26: the value's bits of a column are the value XOR the mask's bits, and XOR is its own inverse. -/
theorem maskingIsReversible : Obligations.MaskingIsReversible := by
  intro x v m
  calc valueBits (columnOf x v m) ^^^ (if m then 0x0#8 else if x % 2 = 0 then 0xA#8 else 0x5#8)
      = valueBits (columnBase x v) ^^^ valueBits (positionMask x m) ^^^ valueBits (positionMask x m) := by
        rw [columnOf_eq_xor, valueBits_xor, ← valueBits_positionMask]
    _ = v.setWidth 8 := by
        rw [BitVec.xor_assoc, BitVec.xor_self, BitVec.xor_zero, valueBits_columnBase]

end Sys2Proof.Machine
end

