-- ==== Sys2Proof/Proofs/AssembledLine.lean ====
section
/-! The line that ASSEMBLE draws (spec/44_grid_assembler.md R211, R217): drawing reads and writes the grid and the
cursor only, and on a fresh grid it leaves the columns of the layout in their order. -/

namespace Sys2Proof.Machine

/-! ### Drawing steps -/

/-- A drawing step moves the cursor and writes the grid, as the grid and the cursor alone say. -/
def IsDrawing (f : State → State) : Prop :=
  ∀ s s' : State, s.grid = s'.grid → s.x = s'.x → f s' = { s' with grid := (f s).grid, x := (f s).x }

theorem IsDrawing.comp {f g : State → State} (hf : IsDrawing f) (hg : IsDrawing g) : IsDrawing (f ∘ g) := by
  intro s s' same_grid same_x
  have first := hg s s' same_grid same_x
  have second := hf (g s) (g s') (by rw [first]) (by rw [first])
  rw [Function.comp_apply, second, first]
  rfl

theorem isDrawing_advance (k : Nat) : IsDrawing (advance k) := by
  intro s s' same_grid same_x
  simp only [advance, same_grid, same_x]

theorem isDrawing_putColumn (c : Column) : IsDrawing (putColumn c) := by
  intro s s' same_grid same_x
  simp only [putColumn, advance, same_grid, same_x]

theorem isDrawing_putColumns (cs : List Column) : IsDrawing (putColumns cs) := by
  induction cs with
  | nil =>
    intro s s' same_grid same_x
    simp only [putColumns, same_grid, same_x]
  | cons c cs ih => exact ih.comp (isDrawing_putColumn c)

theorem isDrawing_putByte (isMeta : Bool) (d : Symbol) : IsDrawing (putByte isMeta d) := by
  intro s s' same_grid same_x
  rw [putByte_eq_putColumns, putByte_eq_putColumns, ← same_x]
  exact isDrawing_putColumns _ s s' same_grid same_x

theorem isDrawing_putBytes (isMeta : Bool) (ds : List Symbol) : IsDrawing (putBytes isMeta ds) := by
  induction ds with
  | nil => exact isDrawing_putColumns []
  | cons d ds ih => exact ih.comp (isDrawing_putByte isMeta d)

/-! ### Drawing on a fresh grid -/

@[simp] theorem putColumns_clearGrid_x_toNat {cs : List Column} (h : cs.length < 128) (w : Nat) (s : State) :
    (putColumns cs (clearGrid w s)).x.toNat = cs.length := by
  rw [putColumns_x_toNat cs (by simpa using h)]
  simp

/-- From column 0 of a fresh grid, column k is the k-th one drawn, and 0 beyond the last. -/
theorem gridColumn_putColumns_clearGrid {cs : List Column} (h : cs.length ≤ 111) (w : Nat) (s : State) (k : Nat) :
    gridColumn (putColumns cs (clearGrid w s)) k = cs.getD k 0#8 := by
  rw [gridColumn_putColumns cs (by simpa using h)]
  by_cases drawn : k < cs.length
  · simp [drawn]
  · simp [drawn]

/-- Skipping a clear column is drawing a clear column. -/
theorem advance_one_eq_putColumn {s : State} (clear : gridColumn s s.x.toNat = 0#8) :
    advance 1 s = putColumn 0#8 s := by
  have same_grid : s.grid = s.grid.setIfInBounds s.x.toNat 0#8 := by
    apply vector_ext_entry
    intro k _
    rw [entry_setIfInBounds]
    split
    next here => rw [← here.1]; exact clear
    next => rfl
  simp only [putColumn, ← same_grid]

/-- A quiet-zone column of a fresh grid (R211): the column skipped holds 0. -/
theorem advance_one_putColumns_clearGrid {cs : List Column} (h : cs.length ≤ 111) (w : Nat) (s : State) :
    advance 1 (putColumns cs (clearGrid w s)) = putColumns (cs ++ [0#8]) (clearGrid w s) := by
  rw [putColumns_append]
  apply advance_one_eq_putColumn
  rw [putColumns_clearGrid_x_toNat (by omega), gridColumn_putColumns_clearGrid h, List.getD_eq_default _ _ le_rfl]

theorem putBytes_putColumns_clearGrid {cs : List Column} (isMeta : Bool) {ds : List Symbol}
    (h : cs.length + 2 * ds.length < 128) (w : Nat) (s : State) :
    putBytes isMeta ds (putColumns cs (clearGrid w s)) =
      putColumns (cs ++ bytesColumns isMeta cs.length ds) (clearGrid w s) := by
  have cursor : (putColumns cs (clearGrid w s)).x.toNat = cs.length := putColumns_clearGrid_x_toNat (by omega) w s
  rw [putBytes_eq_putColumns isMeta ds (by omega), cursor, putColumns_append]

/-! ### The layout (R211) -/

@[simp] theorem leftFinderColumns_length : leftFinderColumns.length = 3 := rfl

@[simp] theorem rightFinderColumns_length (s : State) : (rightFinderColumns s).length = 2 := rfl

/-- The bytes of the payload and ECC region. -/
def lineBytes (s : State) : List Symbol := message s ++ parity (eccCount (chunkLength s)) s

/-- The columns of R211's table, from the left finder to the right finder. -/
def lineColumns (s : State) : List Column :=
  leftFinderColumns ++ [0#8] ++ bytesColumns true 4 [sequenceId s, s.seqTotal] ++ bytesColumns false 8 (lineBytes s) ++
    [0#8] ++ rightFinderColumns s

/-- The seven steps of R211 with the bytes of `s`; `drawLine_eq_lineDrawing` ties it to `drawLine`. -/
def lineDrawing (s : State) : State → State :=
  putColumns (rightFinderColumns s) ∘ advance 1 ∘ putBytes false (lineBytes s) ∘
    putBytes true [sequenceId s, s.seqTotal] ∘ advance 1 ∘ putColumns leftFinderColumns

theorem drawLine_eq_lineDrawing (s : State) :
    drawLine s = lineDrawing s (clearGrid (lineWidth (chunkLength s)) s) := rfl

theorem isDrawing_lineDrawing (s : State) : IsDrawing (lineDrawing s) :=
  (isDrawing_putColumns _).comp <| (isDrawing_advance 1).comp <| (isDrawing_putBytes false _).comp <|
    (isDrawing_putBytes true _).comp <| (isDrawing_advance 1).comp (isDrawing_putColumns _)

theorem drawLine_gridW (s : State) : (drawLine s).gridW = BitVec.ofNat 7 (lineWidth (chunkLength s)) := by
  rw [drawLine_eq_lineDrawing, isDrawing_lineDrawing s _ _ rfl rfl, clearGrid_gridW]

theorem lineBytes_length {s : State} (short : chunkLength s ≤ 40) :
    (lineBytes s).length = chunkLength s + eccCount (chunkLength s) := by
  have parity_fits : eccCount (chunkLength s) ≤ 10 := (eccCount_le_iff (by decide)).2 short
  simp [lineBytes, message, parity, Nat.min_eq_left short, Nat.min_eq_left parity_fits]

theorem lineWidth_eq_lineBytes_length {s : State} (short : chunkLength s ≤ 40) :
    lineWidth (chunkLength s) = 11 + 2 * (lineBytes s).length := by
  rw [lineBytes_length short, lineWidth]
  omega

theorem lineColumns_length (s : State) : (lineColumns s).length = 11 + 2 * (lineBytes s).length := by
  simp [lineColumns]
  omega

/-- A line of at most 40 symbols is its columns, drawn from column 0 of a fresh grid. -/
theorem drawLine_eq_putColumns {s : State} (short : chunkLength s ≤ 40) :
    drawLine s = putColumns (lineColumns s) (clearGrid (lineWidth (chunkLength s)) s) := by
  have fits : 11 + 2 * (lineBytes s).length ≤ 111 := lineWidth_eq_lineBytes_length short ▸ lineWidth_le short
  simp only [drawLine_eq_lineDrawing, lineDrawing, Function.comp_apply]
  rw [advance_one_putColumns_clearGrid (by decide), putBytes_putColumns_clearGrid true (by simp),
    putBytes_putColumns_clearGrid false (by simp; omega),
    advance_one_putColumns_clearGrid (by simp; omega), ← putColumns_append]
  rfl

/-- Column c of a line of at most 40 symbols is the c-th of the layout, and 0 beyond it. -/
theorem gridColumn_drawLine {s : State} (short : chunkLength s ≤ 40) (c : Nat) :
    gridColumn (drawLine s) c = (lineColumns s).getD c 0#8 := by
  have fits : (lineColumns s).length ≤ 111 := by
    rw [lineColumns_length, ← lineWidth_eq_lineBytes_length short]
    exact lineWidth_le short
  rw [drawLine_eq_putColumns short, gridColumn_putColumns_clearGrid fits]

/-! ### The regions of the layout -/

theorem lineColumns_getD_of_meta (s : State) {k : Nat} (h : k < 4) :
    (lineColumns s).getD (4 + k) 0#8 = (bytesColumns true 4 [sequenceId s, s.seqTotal]).getD k 0#8 := by
  rw [lineColumns, List.getD_append _ _ _ _ (by simp; omega),
    List.getD_append _ _ _ _ (by simp; omega),
    List.getD_append _ _ _ _ (by simp; omega),
    List.getD_append_right _ _ _ _ (by simp)]
  simp

theorem lineColumns_getD_of_lineBytes (s : State) {k : Nat} (h : k < 2 * (lineBytes s).length) :
    (lineColumns s).getD (8 + k) 0#8 = (bytesColumns false 8 (lineBytes s)).getD k 0#8 := by
  rw [lineColumns, List.getD_append _ _ _ _ (by simp; omega),
    List.getD_append _ _ _ _ (by simp; omega),
    List.getD_append_right _ _ _ _ (by simp)]
  simp

theorem lineColumns_getD_of_rightFinder (s : State) (k : Nat) :
    (lineColumns s).getD (9 + 2 * (lineBytes s).length + k) 0#8 = (rightFinderColumns s).getD k 0#8 := by
  have before : (leftFinderColumns ++ [0#8] ++ bytesColumns true 4 [sequenceId s, s.seqTotal] ++
      bytesColumns false 8 (lineBytes s) ++ [0#8]).length = 9 + 2 * (lineBytes s).length := by
    simp
    omega
  rw [lineColumns, List.getD_append_right _ _ _ _ (by omega), before, Nat.add_sub_cancel_left]

/-- A column of a list of bytes is Col of its own position (R190). -/
theorem exists_bytesColumns_getD (isMeta : Bool) (x : Nat) {ds : List Symbol} {k : Nat} (h : k < 2 * ds.length) :
    ∃ v, (bytesColumns isMeta x ds).getD k 0#8 = columnOf (x + k) v isMeta := by
  obtain ⟨low, high⟩ := bytesColumns_getD isMeta x ds (show k / 2 < ds.length by omega)
  rcases Nat.even_or_odd' k with ⟨t, rfl | rfl⟩
  · exact ⟨_, by simpa using low⟩
  · exact ⟨_, by simpa [show (2 * t + 1) / 2 = t by omega, ← Nat.add_assoc] using high⟩

/-- Every column of the metadata, payload and ECC region is Col of its own position. -/
theorem exists_lineColumns_getD {s : State} {x : Nat} (low : 4 ≤ x) (high : x < 8 + 2 * (lineBytes s).length) :
    ∃ v m, (lineColumns s).getD x 0#8 = columnOf x v m := by
  rcases Nat.lt_or_ge x 8 with inMeta | inBytes
  · obtain ⟨k, rfl⟩ := Nat.exists_eq_add_of_le low
    have metaColumn : k < 4 := by omega
    obtain ⟨v, col⟩ := exists_bytesColumns_getD true 4 (ds := [sequenceId s, s.seqTotal]) metaColumn
    exact ⟨v, true, (lineColumns_getD_of_meta s metaColumn).trans col⟩
  · obtain ⟨k, rfl⟩ := Nat.exists_eq_add_of_le inBytes
    have byteColumn : k < 2 * (lineBytes s).length := by omega
    obtain ⟨v, col⟩ := exists_bytesColumns_getD false 8 byteColumn
    exact ⟨v, false, (lineColumns_getD_of_lineBytes s byteColumn).trans col⟩

/-! ### The state ASSEMBLE leaves (R217) -/

/-- A command that leaves ERR = OK has passed its checks and made its effect. -/
theorem eq_succeed_effect_of_ok {i : Instr} {s t : State} (h : exec i s = .next t) (ok : t.err = .ok) :
    t = succeed (effect i s) := by
  obtain ⟨-, done⟩ | ⟨c, failed, -, rfl⟩ := exec_cases h
  · exact done
  · exact absurd ok failed

/-- The state whose line ASSEMBLE draws: the parity of the message is in place (R217). -/
abbrev encodedState (s : State) : State := encodeMessage (eccCount (chunkLength s)) s

theorem effect_assemble (s : State) :
    effect .assemble s = setResult (lineWidth (chunkLength s)) (drawLine (encodedState s)) := rfl

section
variable {s t : State} (short : s.msgLen.toNat ≤ 40) (h : exec .assemble s = .next t) (ok : t.err = .ok)
include short h ok

theorem gridW_of_assembled : t.gridW.toNat = 11 + 2 * (lineBytes (encodedState s)).length := by
  have narrow : lineWidth (chunkLength (encodedState s)) < 2 ^ 7 := (lineWidth_le short).trans_lt (by decide)
  rw [eq_succeed_effect_of_ok h ok, effect_assemble, succeed_gridW, setResult_gridW, drawLine_gridW,
    BitVec.toNat_ofNat, Nat.mod_eq_of_lt narrow]
  exact lineWidth_eq_lineBytes_length (s := encodedState s) short

theorem gridColumn_of_assembled (c : Nat) : gridColumn t c = (lineColumns (encodedState s)).getD c 0#8 := by
  rw [eq_succeed_effect_of_ok h ok, effect_assemble, gridColumn, succeed_grid, setResult_grid]
  exact gridColumn_drawLine (s := encodedState s) short c

end

/-! ### The clock rows (R219) -/

/-- The clock rows of a column depend on its position only (spec/43_column_writer.md R196). -/
theorem columnOf_clock_rows (x : Nat) (v : BitVec 4) (m : Bool) :
    (columnOf x v m).getLsbD 0 = decide (x % 2 = 0) ∧ (columnOf x v m).getLsbD 7 = decide (x % 2 ≠ 0) := by
  rw [columnOf_row x v m (by decide), columnOf_row x v m (by decide)]
  rcases Nat.mod_two_eq_zero_or_one x with parity | parity <;> simp [columnRow, parity]

/-- Settles O36: every column of the region is Col of its own position, whose clock rows show that position. -/
theorem assembledLineKeepsTheClock : Obligations.AssembledLineKeepsTheClock := by
  intro s t short h ok x low high
  rw [gridW_of_assembled short h ok] at high
  obtain ⟨v, m, col⟩ := exists_lineColumns_getD (s := encodedState s) low (by omega)
  simp only [gridBit, gridColumn_of_assembled short h ok, col]
  exact columnOf_clock_rows x v m

/-! ### The right finder (R220) -/

/-- Rows 3 and 4 of a right-finder column hold its centre bit (R213). -/
theorem rightFinderColumn_centre (centre : Bool) {y : Nat} (h : y = 3 ∨ y = 4) :
    (rightFinderColumn centre).getLsbD y = centre := by
  rw [rightFinderColumn, packRows_getLsbD _ (by omega)]
  rcases h with rfl | rfl <;> rfl

theorem rightFinderBits_of_last {idx total : Nat} (h : idx + 1 = total) : rightFinderBits idx total = (true, true) :=
  if_pos h

theorem rightFinderBits_of_not_last {idx total : Nat} (h : idx + 1 ≠ total) :
    rightFinderBits idx total = (decide ((idx + 1) % 2 = 0), decide ((idx + 1) % 2 = 1)) := by
  rw [rightFinderBits, if_neg h]
  rcases Nat.mod_two_eq_zero_or_one (idx + 1) with parity | parity <;> simp [parity]

/-- The centre rows of the last two columns of an assembled line are the two bits of R213. -/
theorem rightFinder_of_assembled {s t : State} (short : s.msgLen.toNat ≤ 40) (h : exec .assemble s = .next t)
    (ok : t.err = .ok) {y : Nat} (centre_row : y = 3 ∨ y = 4) :
    (gridBit t y (t.gridW.toNat - 2), gridBit t y (t.gridW.toNat - 1)) =
      rightFinderBits s.seqIdx.toNat s.seqTotal.toNat := by
  have width := gridW_of_assembled short h ok
  have column (k c : Nat) (place : c = 9 + 2 * (lineBytes (encodedState s)).length + k) :
      gridColumn t c = (rightFinderColumns s).getD k 0#8 := by
    rw [gridColumn_of_assembled short h ok, place]
    exact lineColumns_getD_of_rightFinder (encodedState s) k
  rw [gridBit, gridBit, column 0 _ (by omega), column 1 _ (by omega)]
  exact Prod.ext (rightFinderColumn_centre _ centre_row) (rightFinderColumn_centre _ centre_row)

/-- Settles O37: the centre rows are the two bits of R213, which only the last chunk has both set. -/
theorem rightFinderMarksTheLastChunk : Obligations.RightFinderMarksTheLastChunk := by
  intro s t short h ok y centre_row
  have bits := rightFinder_of_assembled short h ok centre_row
  constructor
  · intro last
    exact Prod.ext_iff.1 (bits.trans (rightFinderBits_of_last last))
  · intro not_last
    exact Prod.ext_iff.1 (bits.trans (rightFinderBits_of_not_last not_last))

/-! ### What ASSEMBLE depends on (R221) -/

/-- The registers that ASSEMBLE reads, MSG up to MSG_LEN. -/
structure SameLineInputs (s s' : State) : Prop where
  message_eq : message s = message s'
  msgLen_eq : s.msgLen = s'.msgLen
  seqIdx_eq : s.seqIdx = s'.seqIdx
  seqTotal_eq : s.seqTotal = s'.seqTotal

theorem SameLineInputs.chunkLength_eq {s s' : State} (same : SameLineInputs s s') : chunkLength s = chunkLength s' :=
  congrArg BitVec.toNat same.msgLen_eq

/-- The generator and the parity depend on the message only (R141, R143). -/
theorem SameLineInputs.encodedState_eq {s s' : State} (same : SameLineInputs s s') :
    encodedState s' =
      { s' with gen := (encodedState s).gen, genN := (encodedState s).genN, ecc := (encodedState s).ecc } := by
  have encoded (u : State) : encodedState u =
      { u with gen := pad 10 (generator (eccCount (chunkLength u))), genN := BitVec.ofNat 4 (eccCount (chunkLength u)),
               ecc := pad 10 (remainder (message u) (generator (eccCount (chunkLength u)))) } := rfl
  rw [encoded s', encoded s, same.message_eq, same.chunkLength_eq]

theorem SameLineInputs.lineDrawing_eq {s s' : State} (same : SameLineInputs s s') (same_ecc : s.ecc = s'.ecc) :
    lineDrawing s = lineDrawing s' := by
  simp only [lineDrawing, lineBytes, parity, sequenceId, rightFinderColumns, same.message_eq, same.chunkLength_eq,
    same.seqIdx_eq, same.seqTotal_eq, same_ecc]

/-- The line drawn is the same from equal inputs and equal parity, and drawing changes nothing but the grid, its width
and the cursor. -/
theorem SameLineInputs.drawLine_eq {s s' : State} (same : SameLineInputs s s') (same_ecc : s.ecc = s'.ecc) :
    drawLine s' = { s' with grid := (drawLine s).grid, gridW := (drawLine s).gridW, x := (drawLine s).x } := by
  have drawn := isDrawing_lineDrawing s (clearGrid (lineWidth (chunkLength s)) s)
    (clearGrid (lineWidth (chunkLength s)) s') rfl rfl
  rw [drawLine_gridW, drawLine_eq_lineDrawing s', ← same.lineDrawing_eq same_ecc, ← same.chunkLength_eq, drawn]
  rfl

theorem drawLine_frame (s : State) :
    drawLine s = { s with grid := (drawLine s).grid, gridW := (drawLine s).gridW, x := (drawLine s).x } :=
  SameLineInputs.drawLine_eq ⟨rfl, rfl, rfl, rfl⟩ rfl

@[simp] theorem drawLine_gen (s : State) : (drawLine s).gen = s.gen := by rw [drawLine_frame]
@[simp] theorem drawLine_genN (s : State) : (drawLine s).genN = s.genN := by rw [drawLine_frame]
@[simp] theorem drawLine_ecc (s : State) : (drawLine s).ecc = s.ecc := by rw [drawLine_frame]

/-- `s` with the registers that ASSEMBLE writes, other than STATUS, taken from `u`. -/
def withLineOf (u s : State) : State :=
  { s with gen := u.gen, genN := u.genN, ecc := u.ecc, grid := u.grid, gridW := u.gridW, x := u.x, result := u.result }

/-- ASSEMBLE leaves the same line from equal inputs, and no other register changes. -/
theorem SameLineInputs.effect_assemble_eq {s s' : State} (same : SameLineInputs s s') :
    effect .assemble s' = withLineOf (effect .assemble s) s' := by
  have same_encoded : SameLineInputs (encodedState s) (encodedState s') :=
    ⟨same.message_eq, same.msgLen_eq, same.seqIdx_eq, same.seqTotal_eq⟩
  have same_ecc : (encodedState s).ecc = (encodedState s').ecc := by rw [same.encodedState_eq]
  rw [effect_assemble s', same_encoded.drawLine_eq same_ecc, same.encodedState_eq, effect_assemble s]
  simp only [withLineOf, setResult_gen, setResult_genN, setResult_ecc, drawLine_gen, drawLine_genN, drawLine_ecc,
    same.chunkLength_eq]
  rfl

/-- Equal inputs pass or fail the same checks (R217). -/
theorem SameLineInputs.commandChecks_eq {s s' : State} (same : SameLineInputs s s') :
    commandChecks .assemble s' = commandChecks .assemble s := by
  simp only [commandChecks, same.msgLen_eq, same.seqIdx_eq, same.seqTotal_eq]

/-- ASSEMBLE from equal inputs either leaves the same line, or is refused with the same error. -/
theorem SameLineInputs.exec_assemble_cases {s s' t : State} (same : SameLineInputs s s')
    (h : exec .assemble s = .next t) :
    (t.err = .ok ∧ exec .assemble s' = .next (succeed (withLineOf t s'))) ∨
    ∃ c, c ≠ .ok ∧ t = raiseError c s ∧ exec .assemble s' = .next (raiseError c s') := by
  rw [exec_eq .assemble s', same.commandChecks_eq, same.effect_assemble_eq]
  obtain ⟨passed, rfl⟩ | ⟨c, failed, code, rfl⟩ := exec_cases h
  · exact .inl ⟨rfl, by rw [if_pos passed]; rfl⟩
  · exact .inr ⟨c, failed, rfl, by rw [code, if_neg failed]⟩

/-- ASSEMBLE keeps its own inputs, whether it succeeds or is refused. -/
theorem sameLineInputs_of_exec_assemble {s t : State} (h : exec .assemble s = .next t) : SameLineInputs s t := by
  have same_self : SameLineInputs s s := ⟨rfl, rfl, rfl, rfl⟩
  obtain ⟨-, done⟩ | ⟨c, -, rfl, -⟩ := same_self.exec_assemble_cases h
  · rw [show t = succeed (withLineOf t s) from Host.Outcome.next.inj (h.symm.trans done)]
    exact ⟨rfl, rfl, rfl, rfl⟩
  · exact ⟨rfl, rfl, rfl, rfl⟩

theorem succeed_eq_self {s : State} (ok : s.err = .ok) : succeed s = s := by
  rw [succeed, ← ok]

/-- ASSEMBLE a second time gives the same state (R221). -/
theorem exec_assemble_again {s t : State} (h : exec .assemble s = .next t) : exec .assemble t = .next t := by
  obtain ⟨ok, again⟩ | ⟨c, -, rfl, again⟩ := (sameLineInputs_of_exec_assemble h).exec_assemble_cases h
  · exact again.trans (congrArg _ (succeed_eq_self ok))
  · exact again

/-- Settles O38: equal inputs leave the same line, and ASSEMBLE keeps its own inputs. -/
theorem assembleDependsOnMessageAndSequenceOnly : Obligations.AssembleDependsOnMessageAndSequenceOnly := by
  refine ⟨?_, fun s t h => exec_assemble_again h⟩
  intro s s' t t' message_eq msgLen_eq seqIdx_eq seqTotal_eq h h' ok
  have same : SameLineInputs s s' := ⟨message_eq, msgLen_eq, seqIdx_eq, seqTotal_eq⟩
  obtain ⟨-, line⟩ | ⟨c, failed, rfl, -⟩ := same.exec_assemble_cases h
  · obtain rfl : t' = succeed (withLineOf t s') := Host.Outcome.next.inj (h'.symm.trans line)
    exact ⟨rfl, rfl, rfl, rfl, rfl, rfl, rfl, rfl⟩
  · exact absurd ok failed

end Sys2Proof.Machine
end

