-- ==== Sys2Proof/Proofs/SystemCommand.lean ====
section
/-! NOP (spec/45_system.md R240): its words, what it leaves of STATUS, and that STICKY outlasts every command and every
register write but one to STATUS. -/

namespace Sys2Proof.Machine

/-! ### The words of opcode 0 -/

/-- NOP's row covers the whole word. -/
theorem matches_nopRow_iff (w : Word) : w &&& (opcodeRow .nop).mask = (opcodeRow .nop).value ↔ w = 0#32 := by
  rw [show (opcodeRow .nop).mask = BitVec.allOnes 32 from rfl, BitVec.and_allOnes]
  rfl

/-- A word of opcode 0 that is not NOP's has a reserved bit set. -/
theorem decode_reservedBits_of_opField_zero {w : Word} (op : opField w = 0#8) (not_zero : w ≠ 0#32) :
    decode w = .error .reservedBits := by
  have byte : w &&& 0xFF#32 = (opcodeRow .nop).value := by
    rw [and_opcodeMask, op]
    rfl
  rw [decode_reservedBits_iff, matchesRow_iff_of_opcode byte, matches_nopRow_iff]
  exact ⟨⟨_, opcodeRow_mem .nop, byte⟩, not_zero⟩

/-! ### STATUS when ERR is cleared -/

/-- Clearing ERR leaves the STICKY bit of STATUS and no other. -/
theorem statusWord_succeed (s : State) : statusWord (succeed s) = statusWord s &&& 0x100#32 := by
  have cleared : (0#23 ++ BitVec.ofBool s.sticky ++ errorCode s.err) &&& (0#23 ++ BitVec.allOnes 1 ++ 0x00#8) =
      0#23 ++ BitVec.ofBool s.sticky ++ 0x00#8 := by
    rw [BitVec.and_append, BitVec.and_append, BitVec.and_self, BitVec.and_allOnes, BitVec.and_zero]
  exact cleared.symm

/-! ### STICKY -/

@[simp] theorem putColumns_sticky (cs : List Column) (s : State) : (putColumns cs s).sticky = s.sticky := by
  rw [putColumns_frame]

@[simp] theorem drawLine_sticky (s : State) : (drawLine s).sticky = s.sticky := by rw [drawLine_frame]

/-- No command's effect touches STICKY: a command reaches it by raising an error only. -/
theorem effect_sticky (i : Instr) (s : State) : (effect i s).sticky = s.sticky := by
  cases i with
  | nop | gfMul | gfExp | gfLog | eccCount | rsGen | rsRem | rsEncode | rsSynd | gridInit | skip | plan | selChunk =>
    rfl
  | colWrite => exact putColumn_sticky s _
  | byteWrite | finderL | finderR => exact putColumns_sticky _ s
  | assemble => exact drawLine_sticky (encodedState s)

theorem exec_keeps_sticky {i : Instr} {s t : State} (h : exec i s = .next t) (sticky : s.sticky = true) :
    t.sticky = true := by
  obtain ⟨-, rfl⟩ | ⟨c, -, -, rfl⟩ := exec_cases h
  · rw [succeed_sticky, effect_sticky, sticky]
  · exact raiseError_sticky s c

/-- A checked write stores or is refused; neither clears STICKY. -/
theorem checkedWrite_storeReg_keeps_sticky {limit : Nat} {c : ErrCode} {r : Reg} {v : Word} {s : State}
    (sticky : s.sticky = true) : (checkedWrite limit c v (storeReg r v) s).sticky = true := by
  obtain ⟨-, refused⟩ | ⟨-, written⟩ := checkedWrite_cases limit c v (storeReg r v) s
  · rw [refused, raiseError_sticky]
  · obtain ⟨-, store_sticky, -⟩ := storeReg_frame r v s
    rw [written, succeed_sticky, store_sticky, sticky]

theorem writeReg_keeps_sticky {r : Reg} {v : Word} {s t : State} (not_status : r ≠ .status)
    (h : writeReg r v s = .next t) (sticky : s.sticky = true) : t.sticky = true := by
  cases r with
  | status => exact absurd rfl not_status
  | cmd =>
    cases decoded : decode v with
    | ok i => exact exec_keeps_sticky ((writeReg_cmd_of_ok decoded s).symm.trans h) sticky
    | error e =>
      cases (writeReg_cmd_of_error decoded s).symm.trans h
      exact raiseError_sticky s _
  | msgLen | seqIdx | seqTotal | msg | ecc =>
    cases (writeReg_checked rfl s).symm.trans h
    exact checkedWrite_storeReg_keeps_sticky sticky
  | result | cursor | gridW | payLen | genN | gen | syn | gridCol =>
    cases (writeReg_readOnly rfl v s).symm.trans h
    exact raiseError_sticky s _

/-- Settles O41: NOP is `succeed`, its word is the only one its row matches, commands and register writes keep STICKY,
and the rule's example is `statusWord_succeed`. -/
theorem nopClearsOnlyTheErrorCode : Obligations.NopClearsOnlyTheErrorCode := by
  refine ⟨fun s => rfl, fun w => ⟨decode_eq_nop_iff w, decode_reservedBits_of_opField_zero⟩,
    fun i s t h sticky => exec_keeps_sticky h sticky,
    fun r v s t not_status h sticky => writeReg_keeps_sticky not_status h sticky, fun s t status h => ?_⟩
  cases h
  calc statusWord (succeed s)
      = 0x105#32 &&& 0x100#32 := by rw [statusWord_succeed, status]
    _ = 0x100#32 := by decide

end Sys2Proof.Machine
end

