-- ==== Sys2Proof/Proofs/ErrorAbort.lean ====
section
/-! The error abort (spec/60_exceptions.md R250): a command or a register write either ends with ERR = OK or is
`raiseError` of the state it started from. -/

namespace Sys2Proof.Machine

/-- From `s` to `t` the block ended with ERR = OK, or raised an error and did nothing else. -/
def EndsOrRaises (s t : State) : Prop := t.err = .ok ∨ ∃ c, t = raiseError c s

theorem endsOrRaises_raiseError (c : ErrCode) (s : State) : EndsOrRaises s (raiseError c s) := .inr ⟨c, rfl⟩

/-- An error changes ERR and STICKY only. -/
theorem EndsOrRaises.eq_of_error {s t : State} (h : EndsOrRaises s t) (failed : t.err ≠ .ok) :
    t = { s with err := t.err, sticky := true } := by
  obtain ok | ⟨c, rfl⟩ := h
  · exact absurd ok failed
  · rfl

theorem exec_endsOrRaises {i : Instr} {s t : State} (h : exec i s = .next t) : EndsOrRaises s t := by
  obtain ⟨-, rfl⟩ | ⟨c, -, -, rfl⟩ := exec_cases h
  · exact .inl (succeed_err _)
  · exact endsOrRaises_raiseError c s

theorem checkedWrite_endsOrRaises (limit : Nat) (c : ErrCode) (v : Word) (put : State → State) (s : State) :
    EndsOrRaises s (checkedWrite limit c v put s) := by
  obtain ⟨-, refused⟩ | ⟨-, written⟩ := checkedWrite_cases limit c v put s
  · rw [refused]
    exact endsOrRaises_raiseError c s
  · rw [written]
    exact .inl (succeed_err _)

/-- A write to STATUS is apart: it leaves ERR, which may still hold the code of an earlier error (R67, R251). -/
theorem writeReg_endsOrRaises {r : Reg} {v : Word} {s t : State} (not_status : r ≠ .status)
    (h : writeReg r v s = .next t) : EndsOrRaises s t := by
  cases r with
  | status => exact absurd rfl not_status
  | cmd =>
    cases decoded : decode v with
    | ok i => exact exec_endsOrRaises ((writeReg_cmd_of_ok decoded s).symm.trans h)
    | error e =>
      cases (writeReg_cmd_of_error decoded s).symm.trans h
      exact endsOrRaises_raiseError _ s
  | msgLen | seqIdx | seqTotal | msg | ecc =>
    cases (writeReg_checked rfl s).symm.trans h
    exact checkedWrite_endsOrRaises _ _ v _ s
  | result | cursor | gridW | payLen | genN | gen | syn | gridCol =>
    cases (writeReg_readOnly rfl v s).symm.trans h
    exact endsOrRaises_raiseError _ s

/-- Settles O39: `exec_eq` and `writeReg_completes` give the next state, and `EndsOrRaises` what an error changes in
it. -/
theorem errorsChangeOnlyStatus : Obligations.ErrorsChangeOnlyStatus := by
  constructor
  · intro i s
    have runs := exec_eq i s
    exact ⟨_, runs, (exec_endsOrRaises runs).eq_of_error⟩
  · intro r v s
    obtain ⟨t, written⟩ := writeReg_completes r v s
    exact ⟨t, written, fun not_status => (writeReg_endsOrRaises not_status written).eq_of_error⟩

end Sys2Proof.Machine
end

