-- ==== Sys2Proof/Proofs/ManualSequence.lean ====
section
/-! The manual sequence of spec/70_reset_and_hazards.md R289: after RS_ENCODE and GRID_INIT its column commands are the
drawing steps of ASSEMBLE's line, and none of them fails while the columns left to draw fit the grid. -/

namespace Sys2Proof.Machine

/-! ### Running a list of commands -/

/-- A command whose checks pass makes its effect. -/
theorem exec_of_passes {i : Instr} {s : State} (passes : firstError (commandChecks i s) = .ok) :
    exec i s = .next (succeed (effect i s)) := by
  rw [exec_eq, if_pos passes]

theorem execAll_cons_of_next {i : Instr} {s t : State} (h : exec i s = .next t) (is : List Instr) :
    execAll (i :: is) s = execAll is t := by
  rw [execAll, h]

theorem execAll_append_of_next {is : List Instr} {s t : State} (h : execAll is s = .next t) (js : List Instr) :
    execAll (is ++ js) s = execAll js t := by
  induction is generalizing s with
  | nil =>
    obtain rfl : s = t := Host.Outcome.next.inj h
    rfl
  | cons i is ih =>
    rw [List.cons_append, execAll_cons_of_next (exec_eq i s)]
    rw [execAll_cons_of_next (exec_eq i s)] at h
    exact ih h

theorem rsEncode_passes {n : Nat} {s : State} (legal : eccCountLegal n = true) (nonempty : 1 ≤ s.msgLen.toNat) :
    firstError (commandChecks (.rsEncode n) s) = .ok := by
  have not_empty : s.msgLen.toNat ≠ 0 := by omega
  simp [commandChecks, badCount_eq_not_eccCountLegal, legal, not_empty]

theorem gridInit_passes {w : Nat} (pos : 1 ≤ w) (narrow : w ≤ 111) (s : State) :
    firstError (commandChecks (.gridInit w) s) = .ok := by
  have not_zero : w ≠ 0 := by omega
  simp [commandChecks, not_zero, narrow]

theorem assemble_passes {s : State} (nonempty : 1 ≤ s.msgLen.toNat) (legal : sequenceLegal s = true) :
    firstError (commandChecks .assemble s) = .ok := by
  have not_empty : s.msgLen.toNat ≠ 0 := by omega
  simp [commandChecks, badSequence_eq_not_sequenceLegal, legal, not_empty]

/-! ### Drawing steps -/

theorem putBytes_append (isMeta : Bool) (ds es : List Symbol) (s : State) :
    putBytes isMeta (ds ++ es) s = putBytes isMeta es (putBytes isMeta ds s) := by
  induction ds generalizing s with
  | nil => rfl
  | cons d ds ih => exact ih (putByte isMeta d s)

/-- A drawing step leaves every register but the grid and the cursor. -/
theorem IsDrawing.frame {f : State → State} (h : IsDrawing f) (s : State) :
    f s = { s with grid := (f s).grid, x := (f s).x } := h s s rfl rfl

/-! ### Commands that draw -/

/-- The last event was no error, the sequence registers are those of `base`, and `k` columns fit at the cursor. -/
structure ReadyToDraw (base : State) (k : Nat) (s : State) : Prop where
  ok : s.err = .ok
  seqIdx_eq : s.seqIdx = base.seqIdx
  seqTotal_eq : s.seqTotal = base.seqTotal
  fits : s.x.toNat + k ≤ s.gridW.toNat

theorem ReadyToDraw.fewer {base s : State} {k l : Nat} (ready : ReadyToDraw base (k + l) s) : ReadyToDraw base k s :=
  { ready with fits := le_trans (by omega) ready.fits }

theorem ReadyToDraw.lt {base s : State} {k : Nat} (ready : ReadyToDraw base k s) : s.x.toNat + k < 128 :=
  ready.fits.trans_lt s.gridW.isLt

/-- Where `k` columns fit, the commands draw as the step `f` and move the cursor by `k`. -/
structure Draws (base : State) (is : List Instr) (k : Nat) (f : State → State) : Prop where
  drawing : IsDrawing f
  run : ∀ s, ReadyToDraw base k s → execAll is s = .next (f s)
  moves : ∀ s, ReadyToDraw base k s → (f s).x.toNat = s.x.toNat + k

section
variable {base : State}

/-- The commands leave what they do not use of the room they had. -/
theorem Draws.ready {is : List Instr} {k l : Nat} {f : State → State} (h : Draws base is k f) {s : State}
    (ready : ReadyToDraw base (k + l) s) : ReadyToDraw base l (f s) := by
  have moved := h.moves s ready.fewer
  obtain ⟨ok, seqIdx_eq, seqTotal_eq, fits⟩ := ready
  have width : (f s).gridW = s.gridW := by rw [h.drawing.frame s]
  refine ⟨?_, ?_, ?_, by rw [moved, width]; omega⟩ <;> rw [h.drawing.frame s] <;> assumption

theorem Draws.append {is js : List Instr} {k l : Nat} {f g : State → State} (first : Draws base is k f)
    (second : Draws base js l g) : Draws base (is ++ js) (k + l) (g ∘ f) where
  drawing := second.drawing.comp first.drawing
  run s ready := by
    rw [execAll_append_of_next (first.run s ready.fewer), second.run _ (first.ready ready)]
    rfl
  moves s ready := by
    rw [Function.comp_apply, second.moves _ (first.ready ready), first.moves s ready.fewer, Nat.add_assoc]

theorem draws_nil : Draws base [] 0 id where
  drawing := isDrawing_putColumns []
  run _ _ := rfl
  moves _ _ := rfl

/-- One command draws, when its checks ask no more than room for its columns. -/
theorem draws_singleton {i : Instr} {k : Nat} {f : State → State} (drawing : IsDrawing f)
    (passes : ∀ s, ReadyToDraw base k s → firstError (commandChecks i s) = .ok)
    (draws : ∀ s, ReadyToDraw base k s → effect i s = f s)
    (moves : ∀ s, ReadyToDraw base k s → (f s).x.toNat = s.x.toNat + k) : Draws base [i] k f where
  drawing := drawing
  run s ready := by
    have ok : (f s).err = .ok := by rw [drawing.frame s]; exact ready.ok
    rw [execAll_cons_of_next (exec_of_passes (passes s ready)), draws s ready, succeed_eq_self ok]
    rfl
  moves := moves

theorem draws_finderL : Draws base [.finderL] 3 (putColumns leftFinderColumns) :=
  draws_singleton (isDrawing_putColumns _) (fun s ready => by simpa [commandChecks] using ready.fits)
    (fun _ _ => rfl) (fun _ ready => putColumns_x_toNat leftFinderColumns ready.lt)

theorem draws_skip (k : Nat) : Draws base [.skip k] k (advance k) :=
  draws_singleton (isDrawing_advance k) (fun s ready => by simpa [commandChecks] using ready.fits)
    (fun _ _ => rfl) (fun _ ready => advance_x_toNat ready.lt)

theorem draws_byteWrite (d : Symbol) (isMeta : Bool) : Draws base [.byteWrite d isMeta] 2 (putByte isMeta d) :=
  draws_singleton (isDrawing_putByte isMeta d) (fun s ready => by simpa [commandChecks] using ready.fits)
    (fun _ _ => rfl) (fun s ready => putColumns_x_toNat (byteColumns s.x.toNat isMeta d) ready.lt)

theorem draws_byteWrites (isMeta : Bool) (ds : List Symbol) :
    Draws base (ds.map (fun d => .byteWrite d isMeta)) (2 * ds.length) (putBytes isMeta ds) := by
  induction ds with
  | nil => exact draws_nil
  | cons d ds ih =>
    have both := (draws_byteWrite d isMeta).append ih
    rwa [Nat.add_comm 2] at both

theorem draws_finderR (legal : sequenceLegal base = true) :
    Draws base [.finderR] 2 (putColumns (rightFinderColumns base)) := by
  refine draws_singleton (isDrawing_putColumns _) (fun s ready => ?_) (fun s ready => ?_)
    (fun _ ready => putColumns_x_toNat (rightFinderColumns base) ready.lt)
  · have legal_here : sequenceLegal s = true := by
      rwa [sequenceLegal, ready.seqIdx_eq, ready.seqTotal_eq]
    have fits : columnsFit 2 s = true := (columnsFit_iff 2 s).2 ready.fits
    simp [commandChecks, badSequence_eq_not_sequenceLegal, overflow_eq_not_columnsFit, legal_here, fits]
  · rw [effect, rightFinderColumns, ready.seqIdx_eq, ready.seqTotal_eq, rightFinderColumns]

end

/-! ### The two parts of the manual sequence -/

/-- The drawing steps of R289 up to the payload. -/
def openingDrawing (s : State) : State → State :=
  putBytes false (message s) ∘ putBytes true [sequenceId s, s.seqTotal] ∘ advance 1 ∘ putColumns leftFinderColumns

/-- The drawing steps of R289 after the payload. -/
def closingDrawing (s : State) : State → State :=
  putColumns (rightFinderColumns s) ∘ advance 1 ∘ putBytes false (parity (eccCount (chunkLength s)) s)

/-- The two parts together are the steps of ASSEMBLE (R211). -/
theorem lineDrawing_eq_closing_opening (s : State) : lineDrawing s = closingDrawing s ∘ openingDrawing s := by
  funext t
  simp only [lineDrawing, closingDrawing, openingDrawing, lineBytes, Function.comp_apply, putBytes_append]

/-- The commands of the opening after RS_ENCODE and GRID_INIT; `execAll_manualOpening` ties them to `manualOpening`. -/
def openingCommands (s : State) : List Instr :=
  [.finderL] ++ [.skip 1] ++ [sequenceId s, s.seqTotal].map (fun d => .byteWrite d true) ++
    (message s).map (fun d => .byteWrite d false)

theorem draws_openingCommands (s : State) :
    Draws s (openingCommands s) (8 + 2 * (message s).length) (openingDrawing s) :=
  ((draws_finderL.append (draws_skip 1)).append (draws_byteWrites true _)).append (draws_byteWrites false _)

theorem draws_manualClosing {s : State} (legal : sequenceLegal s = true) :
    Draws s (manualClosing s) (2 * (parity (eccCount (chunkLength s)) s).length + 3) (closingDrawing s) :=
  (draws_byteWrites false _).append ((draws_skip 1).append (draws_finderR legal))

/-! ### The sequence and ASSEMBLE -/

/-- The state after RS_ENCODE and GRID_INIT: the parity in place and a fresh grid. -/
def freshLine (s : State) : State := succeed (clearGrid (lineWidth (chunkLength s)) (encodedState s))

theorem execAll_manualOpening {s : State} (nonempty : 1 ≤ s.msgLen.toNat) (short : s.msgLen.toNat ≤ 40) :
    execAll (manualOpening s) s = execAll (openingCommands s) (freshLine s) := by
  have few : eccCount (chunkLength s) ≤ 10 := (eccCount_le_iff (by decide)).2 short
  have some_parity : 4 ≤ eccCount (chunkLength s) := le_max_left 4 _
  have legal : eccCountLegal (eccCount (chunkLength s)) = true := (eccCountLegal_iff _).2 ⟨by omega, few⟩
  have wide : 1 ≤ lineWidth (chunkLength s) := by simp only [lineWidth]; omega
  have encoded := exec_of_passes (rsEncode_passes legal nonempty)
  have cleared := exec_of_passes (gridInit_passes wide (lineWidth_le short) (succeed (encodedState s)))
  exact (execAll_cons_of_next encoded _).trans (execAll_cons_of_next cleared _)

/-- The fresh grid is exactly as wide as the line. -/
theorem readyToDraw_freshLine {s : State} (short : s.msgLen.toNat ≤ 40) :
    ReadyToDraw (encodedState s) (8 + 2 * (message (encodedState s)).length +
      (2 * (parity (eccCount (chunkLength (encodedState s))) (encodedState s)).length + 3)) (freshLine s) := by
  have width := lineWidth_eq_lineBytes_length (s := encodedState s) short
  have narrow : lineWidth (chunkLength s) < 2 ^ 7 := (lineWidth_le short).trans_lt (by decide)
  have gridW_eq : (freshLine s).gridW.toNat = lineWidth (chunkLength (encodedState s)) :=
    (BitVec.toNat_ofNat _ _).trans (Nat.mod_eq_of_lt narrow)
  have x_eq : (freshLine s).x.toNat = 0 := rfl
  refine ⟨rfl, rfl, rfl, ?_⟩
  rw [gridW_eq, width, x_eq, lineBytes, List.length_append]
  omega

/-- The closing sends the ECC bytes that RS_ENCODE left, since drawing keeps ECC. -/
theorem manualClosing_of_drawing {f : State → State} (drawing : IsDrawing f) (s : State) :
    manualClosing (f (freshLine s)) = manualClosing (encodedState s) := by
  rw [drawing.frame]
  rfl

/-- The manual sequence draws ASSEMBLE's line on the fresh grid. -/
theorem manualLine_eq_lineDrawing {s : State} (nonempty : 1 ≤ s.msgLen.toNat) (short : s.msgLen.toNat ≤ 40)
    (legal : sequenceLegal s = true) :
    manualLine s = .next (lineDrawing (encodedState s) (freshLine s)) := by
  have opening := draws_openingCommands (encodedState s)
  have closing := draws_manualClosing (s := encodedState s) legal
  have ready := readyToDraw_freshLine short
  have opened : execAll (manualOpening s) s = .next (openingDrawing (encodedState s) (freshLine s)) :=
    (execAll_manualOpening nonempty short).trans (opening.run _ ready.fewer)
  simp only [manualLine, opened, manualClosing_of_drawing opening.drawing]
  rw [closing.run _ (opening.ready ready), lineDrawing_eq_closing_opening, Function.comp_apply]

/-- What ASSEMBLE leaves is its line drawn on the manual sequence's fresh grid, and RESULT = W. -/
theorem succeed_effect_assemble (s : State) :
    succeed (effect .assemble s) =
      { lineDrawing (encodedState s) (freshLine s) with
        result := BitVec.ofNat 16 (lineWidth (chunkLength s)) } := by
  have drawn := isDrawing_lineDrawing (encodedState s)
    (clearGrid (lineWidth (chunkLength s)) (encodedState s)) (freshLine s) rfl rfl
  rw [effect_assemble, drawLine_frame, drawLine_gridW, drawn]
  rfl

/-- Settles O35: both draw the same line on the same fresh grid, and drawing leaves RESULT. -/
theorem manualSequenceEqualsAssemble : Obligations.ManualSequenceEqualsAssemble := by
  intro s nonempty short total_pos idx_lt
  have legal : sequenceLegal s = true := (sequenceLegal_iff s).2 ⟨total_pos, idx_lt⟩
  refine ⟨_, _, exec_of_passes (assemble_passes nonempty legal), manualLine_eq_lineDrawing nonempty short legal, ?_,
    succeed_effect_assemble s⟩
  rw [(isDrawing_lineDrawing _).frame]
  rfl

end Sys2Proof.Machine
end

