-- ==== Sys2Proof/Proofs/EncodingRoundTrip.lean ====
section
/-! The round trip of spec/30_encoding.md R96 and R99: a command's word has its fields at the positions of R91, decode
reads them back, and a word that decodes is put together again from its fields, its reserved bits being 0. -/

namespace Sys2Proof.Machine

/-! ### Decoding an encoded command -/

theorem checked_of_clear {f : Format} {w : Word} (clear : w &&& reservedMask f = 0#32) (i : Instr) :
    checked f w i = .ok i := by
  rw [checked, if_neg (not_not.2 clear)]

/-- The operand range of format A (R91). -/
theorem fitsA_iff (n : Nat) : fitsA n = true ↔ n < 256 := decide_eq_true_iff

/-- The operand range of format I9 (R91). -/
theorem fitsI9_iff (n : Nat) : fitsI9 n = true ↔ n < 512 := decide_eq_true_iff

/-- The operand range of format I16 (R91). -/
theorem fitsI16_iff (n : Nat) : fitsI16 n = true ↔ n < 65536 := decide_eq_true_iff

/-- Settles O1: in each format the opcode and the fields are read back from the word, no reserved bit is set, and an
operand that fits its field is not cut. -/
theorem decodeReadsBackEveryEncodedCommand : Obligations.DecodeReadsBackEveryEncodedCommand := by
  intro i wf
  cases i with
  | nop | rsRem | finderL | finderR | assemble => simp [encode, decode, checked_of_clear]
  | gfMul | gfLog | colWrite | byteWrite => simp [encode, decode, checked_of_clear]
  | eccCount n | rsGen n | rsEncode n | rsSynd n | gridInit n | skip n | selChunk n =>
    have fits : n < 256 := (fitsA_iff n).1 wf
    simp [encode, decode, checked_of_clear, fits]
  | gfExp n =>
    have fits : n < 512 := (fitsI9_iff n).1 wf
    simp [encode, decode, checked_of_clear, fits]
  | plan n =>
    have fits : n < 65536 := (fitsI16_iff n).1 wf
    simp [encode, decode, checked_of_clear, fits]

/-! ### Putting a word together from its fields -/

/-- A field that the format reserves is 0 in a word without reserved bits. -/
theorem extractLsb'_of_reserved {f : Format} {w : Word} (clear : w &&& reservedMask f = 0#32) {start len : Nat}
    (reserved : ∀ k < len, (reservedMask f).getLsbD (start + k) = true) : w.extractLsb' start len = 0#len := by
  apply BitVec.eq_of_getLsbD_eq
  intro k hk
  have bit : (w &&& reservedMask f).getLsbD (start + k) = false := by rw [clear, BitVec.getLsbD_zero]
  rw [BitVec.getLsbD_and, reserved k hk, Bool.and_true] at bit
  rw [BitVec.getLsbD_extractLsb', bit, Bool.and_false, BitVec.getLsbD_zero]

/-- The M bit as a field of one bit. -/
theorem ofBool_mField (w : Word) : BitVec.ofBool (mField w) = w.extractLsb' 16 1 := by
  apply BitVec.eq_of_getLsbD_eq
  intro k hk
  obtain rfl : k = 0 := by omega
  simp [mField]

section
variable {w : Word}

theorem wordN_of_fields (clear : w &&& reservedMask .n = 0#32) : wordN (opField w) = w := by
  rw [wordN, ← extractLsb'_of_reserved (start := 8) clear (by decide), opField]
  simp only [BitVec.extractLsb'_append_extractLsb'_eq_extractLsb']
  exact BitVec.extractLsb'_eq_self

theorem wordA_of_fields (clear : w &&& reservedMask .a = 0#32) : wordA (opField w) (aField w) = w := by
  rw [wordA, ← extractLsb'_of_reserved (start := 16) clear (by decide), opField, aField]
  simp only [BitVec.extractLsb'_append_extractLsb'_eq_extractLsb']
  exact BitVec.extractLsb'_eq_self

theorem wordAB_of_fields (clear : w &&& reservedMask .ab = 0#32) :
    wordAB (opField w) (aField w) (bField w) = w := by
  rw [wordAB, ← extractLsb'_of_reserved (start := 24) clear (by decide), opField, aField, bField]
  simp only [BitVec.extractLsb'_append_extractLsb'_eq_extractLsb']
  exact BitVec.extractLsb'_eq_self

theorem wordI9_of_fields (clear : w &&& reservedMask .i9 = 0#32) : wordI9 (opField w) (iField w) = w := by
  rw [wordI9, ← extractLsb'_of_reserved (start := 17) clear (by decide), opField, iField]
  simp only [BitVec.extractLsb'_append_extractLsb'_eq_extractLsb']
  exact BitVec.extractLsb'_eq_self

theorem wordI16_of_fields (clear : w &&& reservedMask .i16 = 0#32) : wordI16 (opField w) (pField w) = w := by
  rw [wordI16, ← extractLsb'_of_reserved (start := 24) clear (by decide), opField, pField]
  simp only [BitVec.extractLsb'_append_extractLsb'_eq_extractLsb']
  exact BitVec.extractLsb'_eq_self

theorem wordCol_of_fields (clear : w &&& reservedMask .col = 0#32) :
    wordCol (opField w) (vField w) (mField w) = w := by
  rw [wordCol, ← extractLsb'_of_reserved (start := 17) clear (by decide),
    ← extractLsb'_of_reserved (start := 12) clear (by decide), ofBool_mField, opField, vField]
  simp only [BitVec.extractLsb'_append_extractLsb'_eq_extractLsb']
  exact BitVec.extractLsb'_eq_self

theorem wordByte_of_fields (clear : w &&& reservedMask .byte = 0#32) :
    wordByte (opField w) (dField w) (mField w) = w := by
  rw [wordByte, ← extractLsb'_of_reserved (start := 17) clear (by decide), ofBool_mField, opField, dField]
  simp only [BitVec.extractLsb'_append_extractLsb'_eq_extractLsb']
  exact BitVec.extractLsb'_eq_self

end

/-- A line of the decoder, inverted: the word's opcode and the command read from its fields. -/
theorem decode_line {f : Format} {w : Word} {i j : Instr} {n : Nat} (op : (opField w).toNat = n)
    (h : checked f w i = .ok j) : j = i ∧ opField w = BitVec.ofNat 8 n ∧ w &&& reservedMask f = 0#32 := by
  obtain ⟨rfl, clear⟩ := checked_eq_ok h
  exact ⟨rfl, by rw [← op, BitVec.ofNat_toNat, BitVec.setWidth_eq], clear⟩

/-- Settles O2: the decoder's line fixes the opcode and the command, its operands are fields and so fit them, and the
word is its fields. -/
theorem everyDecodedWordIsItsEncoding : Obligations.EveryDecodedWordIsItsEncoding := by
  intro w i h
  unfold decode at h
  split at h
  case h_19 => cases h
  all_goals
    rename_i op
    obtain ⟨rfl, op_eq, clear⟩ := decode_line op h
  case h_1 | h_7 | h_13 | h_15 | h_16 => exact ⟨rfl, by simpa [encode, op_eq] using wordN_of_fields clear⟩
  case h_2 => exact ⟨rfl, by simpa [encode, op_eq] using wordAB_of_fields clear⟩
  case h_3 => exact ⟨(fitsI9_iff _).2 (iField w).isLt, by simpa [encode, op_eq] using wordI9_of_fields clear⟩
  case h_4 => exact ⟨rfl, by simpa [encode, op_eq] using wordA_of_fields clear⟩
  case h_5 | h_6 | h_8 | h_9 | h_10 | h_14 | h_18 =>
    exact ⟨(fitsA_iff _).2 (aField w).isLt, by simpa [encode, op_eq] using wordA_of_fields clear⟩
  case h_11 => exact ⟨rfl, by simpa [encode, op_eq] using wordCol_of_fields clear⟩
  case h_12 => exact ⟨rfl, by simpa [encode, op_eq] using wordByte_of_fields clear⟩
  case h_17 => exact ⟨(fitsI16_iff _).2 (pField w).isLt, by simpa [encode, op_eq] using wordI16_of_fields clear⟩

/-! ### The number of a word (R91) -/

/-- The number of two fields side by side. -/
theorem append_toNat {m n : Nat} (x : BitVec m) (y : BitVec n) : (x ++ y).toNat = 2 ^ n * x.toNat + y.toNat := by
  rw [BitVec.toNat_append, Nat.shiftLeft_eq, Nat.mul_comm, Nat.two_pow_add_eq_or_of_lt y.isLt]

theorem wordN_toNat (op : BitVec 8) : (wordN op).toNat = op.toNat := by
  simp only [wordN, append_toNat, BitVec.toNat_zero]
  omega

theorem wordA_toNat (op a : BitVec 8) : (wordA op a).toNat = op.toNat + 2 ^ 8 * a.toNat := by
  simp only [wordA, append_toNat, BitVec.toNat_zero]
  omega

theorem wordAB_toNat (op a b : BitVec 8) :
    (wordAB op a b).toNat = op.toNat + 2 ^ 8 * a.toNat + 2 ^ 16 * b.toNat := by
  simp only [wordAB, append_toNat, BitVec.toNat_zero]
  omega

theorem wordI9_toNat (op : BitVec 8) (i : BitVec 9) : (wordI9 op i).toNat = op.toNat + 2 ^ 8 * i.toNat := by
  simp only [wordI9, append_toNat, BitVec.toNat_zero]
  omega

theorem wordI16_toNat (op : BitVec 8) (p : BitVec 16) : (wordI16 op p).toNat = op.toNat + 2 ^ 8 * p.toNat := by
  simp only [wordI16, append_toNat, BitVec.toNat_zero]
  omega

theorem wordCol_toNat (op : BitVec 8) (v : BitVec 4) (m : Bool) :
    (wordCol op v m).toNat = op.toNat + 2 ^ 8 * v.toNat + 2 ^ 16 * m.toNat := by
  simp only [wordCol, append_toNat, BitVec.toNat_zero, BitVec.toNat_ofBool]
  omega

theorem wordByte_toNat (op d : BitVec 8) (m : Bool) :
    (wordByte op d m).toNat = op.toNat + 2 ^ 8 * d.toNat + 2 ^ 16 * m.toNat := by
  simp only [wordByte, append_toNat, BitVec.toNat_zero, BitVec.toNat_ofBool]
  omega

/-- Settles O56: each format's word has its operands at their bit positions, and an operand that fits is not cut. -/
theorem encodedWordHasItsFieldsInPlace : Obligations.EncodedWordHasItsFieldsInPlace := by
  intro i wf
  cases i with
  | nop | rsRem | finderL | finderR | assemble => exact wordN_toNat _
  | gfMul a b => exact wordAB_toNat _ a b
  | gfLog a => exact wordA_toNat _ a
  | colWrite v m => exact wordCol_toNat _ v m
  | byteWrite d m => exact wordByte_toNat _ d m
  | eccCount n | rsGen n | rsEncode n | rsSynd n | gridInit n | skip n | selChunk n =>
    have fits : n < 2 ^ 8 := (fitsA_iff n).1 wf
    rw [encode, wordA_toNat, BitVec.toNat_ofNat n, Nat.mod_eq_of_lt fits]
    rfl
  | gfExp n =>
    have fits : n < 2 ^ 9 := (fitsI9_iff n).1 wf
    rw [encode, wordI9_toNat, BitVec.toNat_ofNat n, Nat.mod_eq_of_lt fits]
    rfl
  | plan n =>
    have fits : n < 2 ^ 16 := (fitsI16_iff n).1 wf
    rw [encode, wordI16_toNat, BitVec.toNat_ofNat n, Nat.mod_eq_of_lt fits]
    rfl

/-- Settles O5: each word is read by its own line of the decoder. -/
theorem writtenOutWordsDecode : Obligations.WrittenOutWordsDecode := by
  unfold Obligations.WrittenOutWordsDecode
  decide

end Sys2Proof.Machine
end

