-- ==== Sys2Proof/Proofs/CommandFrame.lean ====
section
/-! What a command writes and what it leaves: the registers each command may write (spec/20_memory.md R61, "written
by"), how far a cursor command reaches in the grid (spec/70_reset_and_hazards.md R286), and what a command does when it
is issued again (spec/20_memory.md R77). -/

namespace Sys2Proof.Machine

/-! ### Which check fails first -/

/-- Settles O40: `exec_eq` runs the checks in their order, and no effect touches STICKY. -/
theorem theFirstFailingCheckPicksTheError : Obligations.TheFirstFailingCheckPicksTheError := by
  intro i s
  have runs := exec_eq i s
  refine ⟨_, runs, ?_⟩
  obtain ⟨passed, done⟩ | ⟨c, failed, code, raised⟩ := exec_cases runs
  · rw [done, passed, succeed_sticky, effect_sticky]
    exact ⟨rfl, by simp⟩
  · rw [raised, code]
    exact ⟨rfl, by simp [failed]⟩

/-- Every check of R252 has an error code. -/
theorem commandChecks_code_ne_ok {i : Instr} {s : State} : ∀ check ∈ commandChecks i s, check.2 ≠ .ok := by
  cases i <;> simp [commandChecks]

/-- When the first error is none, no check fails. -/
theorem eq_false_of_firstError_eq_ok {checks : List (Bool × ErrCode)} (codes : ∀ check ∈ checks, check.2 ≠ .ok)
    (passed : firstError checks = .ok) : ∀ check ∈ checks, check.1 = false := by
  induction checks with
  | nil => exact fun _ mem => absurd mem List.not_mem_nil
  | cons first rest ih =>
    obtain ⟨fails, c⟩ := first
    obtain ⟨code, rest_codes⟩ := List.forall_mem_cons.1 codes
    cases fails with
    | true => exact absurd passed code
    | false => exact List.forall_mem_cons.2 ⟨rfl, ih rest_codes passed⟩

/-- A command that reports no error has passed each of its checks. -/
theorem check_passes {i : Instr} {s : State} {fails : Bool} {c : ErrCode}
    (passed : firstError (commandChecks i s) = .ok) (mem : (fails, c) ∈ commandChecks i s) : fails = false :=
  eq_false_of_firstError_eq_ok commandChecks_code_ne_ok passed _ mem

/-! ### The registers a command may write -/

/-- The command that evaluates the codeword (spec/10_state.md R34). -/
def writesSyn : Instr → Bool
  | .rsSynd _ => true
  | _ => false

/-- The command that plans a payload (R32, R33). -/
def writesPlan : Instr → Bool
  | .plan _ => true
  | _ => false

/-- The command that selects a chunk (R24). -/
def writesMsgLen : Instr → Bool
  | .selChunk _ => true
  | _ => false

theorem writesSyn_eq_false {i : Instr} (h : ∀ n, i ≠ .rsSynd n) : writesSyn i = false := by
  cases i with
  | rsSynd n => exact absurd rfl (h n)
  | _ => rfl

theorem writesPlan_eq_false {i : Instr} (h : ∀ p, i ≠ .plan p) : writesPlan i = false := by
  cases i with
  | plan p => exact absurd rfl (h p)
  | _ => rfl

theorem writesMsgLen_eq_false {i : Instr} (h : ∀ k, i ≠ .selChunk k) : writesMsgLen i = false := by
  cases i with
  | selChunk k => exact absurd rfl (h k)
  | _ => rfl

/-- `s` with STATUS, RESULT and the registers that the command may write taken from `t`; `exec_frame` ties it to
`exec`. -/
def withWritten (i : Instr) (t s : State) : State :=
  { s with
    gen := if buildsGenerator i then t.gen else s.gen
    genN := if buildsGenerator i then t.genN else s.genN
    ecc := if computesParity i then t.ecc else s.ecc
    gridW := if startsGrid i then t.gridW else s.gridW
    grid := if startsGrid i || isCursorCommand i then t.grid else s.grid
    x := if startsGrid i || isCursorCommand i then t.x else s.x
    syn := if writesSyn i then t.syn else s.syn
    payLen := if writesPlan i then t.payLen else s.payLen
    seqTotal := if writesPlan i then t.seqTotal else s.seqTotal
    msgLen := if writesMsgLen i then t.msgLen else s.msgLen
    seqIdx := if writesPlan i || writesMsgLen i then t.seqIdx else s.seqIdx
    result := t.result
    err := t.err
    sticky := t.sticky }

theorem effect_frame (i : Instr) (s : State) : effect i s = withWritten i (effect i s) s := by
  cases i with
  | byteWrite | finderL | finderR => exact putColumns_frame _ s
  | assemble =>
    rw [effect_assemble, drawLine_frame]
    rfl
  | nop | gfMul | gfExp | gfLog | eccCount | rsGen | rsRem | rsEncode | rsSynd | gridInit | colWrite | skip | plan
  | selChunk => rfl

/-- A command that raises an error writes STATUS only, within what it may write. -/
theorem raiseError_frame (i : Instr) (c : ErrCode) (s : State) :
    raiseError c s = withWritten i (raiseError c s) s := by
  simp only [withWritten, raiseError_gen, raiseError_genN, raiseError_ecc, raiseError_gridW, raiseError_grid,
    raiseError_x, raiseError_syn, raiseError_payLen, raiseError_seqTotal, raiseError_msgLen, raiseError_seqIdx,
    ite_self]
  rfl

theorem exec_frame {i : Instr} {s t : State} (h : exec i s = .next t) : t = withWritten i t s := by
  obtain ⟨-, rfl⟩ | ⟨c, -, -, rfl⟩ := exec_cases h
  · exact congrArg succeed (effect_frame i s)
  · exact raiseError_frame i c s

/-- Settles O54: each clause is one field of `withWritten`. -/
theorem registersAreWrittenOnlyByTheirCommands : Obligations.RegistersAreWrittenOnlyByTheirCommands := by
  intro i s t h
  have frame := exec_frame h
  refine ⟨by rw [frame]; rfl, by rw [frame]; rfl, by rw [frame]; rfl,
    fun no_generator => ?_, fun no_parity => ?_, fun no_grid => ?_, fun no_grid no_cursor => ?_, fun no_syn => ?_,
    fun no_plan => ?_, fun no_chunk => ?_, fun no_plan no_chunk => ?_⟩
  · constructor <;> rw [frame] <;> simp [withWritten, no_generator]
  · rw [frame]; simp [withWritten, no_parity]
  · rw [frame]; simp [withWritten, no_grid]
  · constructor <;> rw [frame] <;> simp [withWritten, no_grid, no_cursor]
  · rw [frame]; simp [withWritten, writesSyn_eq_false no_syn]
  · constructor <;> rw [frame] <;> simp [withWritten, writesPlan_eq_false no_plan]
  · rw [frame]; simp [withWritten, writesMsgLen_eq_false no_chunk]
  · rw [frame]; simp [withWritten, writesPlan_eq_false no_plan, writesMsgLen_eq_false no_chunk]

/-! ### Commands issued twice (R77) -/

/-- The checks read no bit of STATUS. -/
theorem commandChecks_raiseError (i : Instr) (c : ErrCode) (s : State) :
    commandChecks i (raiseError c s) = commandChecks i s := by
  cases i <;> rfl

/-- A command that is no cursor command and not ASSEMBLE reads no register that it writes. -/
theorem exec_again_of_reads_apart {i : Instr} (no_cursor : isCursorCommand i = false) (no_line : i ≠ .assemble)
    (s : State) : commandChecks i (succeed (effect i s)) = commandChecks i s ∧
      succeed (effect i (succeed (effect i s))) = succeed (effect i s) := by
  cases i with
  | colWrite | byteWrite | finderL | skip | finderR => cases no_cursor
  | assemble => exact absurd rfl no_line
  | nop | gfMul | gfExp | gfLog | eccCount | rsGen | rsRem | rsEncode | rsSynd | gridInit | plan | selChunk =>
    exact ⟨rfl, rfl⟩

/-- Settles O51: ASSEMBLE keeps its own inputs, every other command that is no cursor command reads no register that it
writes, and an error raised again is the same error. -/
theorem nonCursorCommandsAreIdempotent : Obligations.NonCursorCommandsAreIdempotent := by
  intro i s t no_cursor h
  by_cases line : i = .assemble
  · subst line
    exact exec_assemble_again h
  obtain ⟨passed, rfl⟩ | ⟨c, failed, code, rfl⟩ := exec_cases h
  · obtain ⟨same_checks, same_effect⟩ := exec_again_of_reads_apart no_cursor line s
    rw [exec_eq, same_checks, if_pos passed, same_effect]
  · rw [exec_eq, commandChecks_raiseError, code, if_neg failed]
    rfl

/-! ### The cursor (R286) -/

/-- From `s` to `t` the cursor moved forward within the grid, and only columns it passed were written. -/
structure CursorMove (s t : State) : Prop where
  gridW_eq : t.gridW = s.gridW
  forward : s.x.toNat ≤ t.x.toNat
  within : t.x.toNat ≤ s.gridW.toNat
  outside : ∀ c, c < s.x.toNat ∨ t.x.toNat ≤ c → gridColumn t c = gridColumn s c

theorem gridColumn_putColumns_outside (cs : List Column) {s : State} (h : s.x.toNat + cs.length < 128) {k : Nat}
    (outside : k < s.x.toNat ∨ s.x.toNat + cs.length ≤ k) : gridColumn (putColumns cs s) k = gridColumn s k := by
  induction cs generalizing s with
  | nil => rfl
  | cons c cs ih =>
    rw [List.length_cons] at h outside
    have moved : (putColumn c s).x.toNat = s.x.toNat + 1 := putColumn_x_toNat (by omega)
    rw [putColumns, ih (by omega) (by omega), gridColumn_putColumn, if_neg (by omega)]

theorem cursorMove_putColumns (cs : List Column) {s : State} (fits : s.x.toNat + cs.length ≤ s.gridW.toNat) :
    CursorMove s (putColumns cs s) := by
  have seven_bits : s.x.toNat + cs.length < 128 := fits.trans_lt s.gridW.isLt
  have moved := putColumns_x_toNat cs seven_bits
  refine ⟨by rw [putColumns_frame], by omega, by omega, fun c outside => ?_⟩
  exact gridColumn_putColumns_outside cs seven_bits (by omega)

theorem cursorMove_advance {k : Nat} {s : State} (fits : s.x.toNat + k ≤ s.gridW.toNat) :
    CursorMove s (advance k s) := by
  have moved : (advance k s).x.toNat = s.x.toNat + k := advance_x_toNat (fits.trans_lt s.gridW.isLt)
  exact ⟨rfl, by omega, by omega, fun c _ => gridColumn_advance k s c⟩

/-- A cursor command that passes its checks has room for its columns. -/
theorem effect_cursorMove {i : Instr} {s : State} (cursor : isCursorCommand i = true)
    (passed : firstError (commandChecks i s) = .ok) : CursorMove s (effect i s) := by
  cases i with
  | colWrite v m => exact cursorMove_putColumns [columnOf s.x.toNat v m] (by simpa [commandChecks] using passed)
  | byteWrite d m =>
    exact cursorMove_putColumns (byteColumns s.x.toNat m d) (by simpa [commandChecks, byteColumns] using passed)
  | finderL => exact cursorMove_putColumns leftFinderColumns (by simpa [commandChecks] using passed)
  | skip k => exact cursorMove_advance (by simpa [commandChecks] using passed)
  | finderR =>
    have fits := check_passes passed (.tail _ (.head _))
    exact cursorMove_putColumns (rightFinderColumns s) (by simpa using fits)
  | nop | gfMul | gfExp | gfLog | eccCount | rsGen | rsRem | rsEncode | rsSynd | gridInit | assemble | plan
  | selChunk => cases cursor

/-- Settles O52: a cursor command writes forward from the cursor, and the other commands that start no grid leave the
grid and the cursor. -/
theorem theCursorOnlyMovesForward : Obligations.TheCursorOnlyMovesForward := by
  intro i s t no_grid h
  cases cursor : isCursorCommand i with
  | false =>
    have frame := exec_frame h
    have gridW_eq : t.gridW = s.gridW := by rw [frame]; simp [withWritten, no_grid]
    have grid_eq : t.grid = s.grid := by rw [frame]; simp [withWritten, no_grid, cursor]
    have x_eq : t.x = s.x := by rw [frame]; simp [withWritten, no_grid, cursor]
    exact ⟨by rw [x_eq], gridW_eq, fun c _ => by rw [gridColumn, grid_eq, gridColumn]⟩
  | true =>
    obtain ⟨passed, rfl⟩ | ⟨c, -, -, rfl⟩ := exec_cases h
    · obtain ⟨gridW_eq, forward, -, outside⟩ := effect_cursorMove cursor passed
      exact ⟨forward, gridW_eq, fun c below => outside c (.inl below)⟩
    · exact ⟨le_rfl, rfl, fun _ _ => rfl⟩

end Sys2Proof.Machine
end

