-- ==== Sys2Proof/Proofs/StepInvariants.lean ====
section
/-! The invariants of spec/10_state.md R41 and R25. What every event keeps is packaged once (`KeptByEvents`): the
effects of commands, the host's stores, a change of STATUS and reset. The invariants are then facts about effects. -/

namespace Sys2Proof.Machine

/-! ### What every step keeps -/

/-- A property that no event breaks, said of the parts that events are made of. -/
structure KeptByEvents (P : State → Prop) : Prop where
  reset : P State.reset
  own_fields : ∀ {s}, P s → ∀ pending response, P { s with pending := pending, response := response }
  status : ∀ {s}, P s → ∀ err sticky, P { s with err := err, sticky := sticky }
  effect : ∀ {i s}, P s → firstError (commandChecks i s) = .ok → P (effect i s)
  store : ∀ {r limit code v s}, P s → checkedLimit r = some (limit, code) → v.toNat ≤ limit → P (storeReg r v s)

section
variable {P : State → Prop}

theorem KeptByEvents.raiseError (kept : KeptByEvents P) {s : State} (holds : P s) (c : ErrCode) :
    P (raiseError c s) :=
  kept.status holds c true

theorem KeptByEvents.succeed (kept : KeptByEvents P) {s : State} (holds : P s) : P (succeed s) :=
  kept.status holds .ok s.sticky

theorem KeptByEvents.exec (kept : KeptByEvents P) {i : Instr} {s t : State} (holds : P s)
    (h : exec i s = .next t) : P t := by
  obtain ⟨passed, rfl⟩ | ⟨c, -, -, rfl⟩ := exec_cases h
  · exact kept.succeed (kept.effect holds passed)
  · exact kept.raiseError holds c

theorem KeptByEvents.checkedWrite (kept : KeptByEvents P) {r : Reg} {limit : Nat} {code : ErrCode} {v : Word}
    {s t : State} (holds : P s) (checked : checkedLimit r = some (limit, code)) (h : writeReg r v s = .next t) :
    P t := by
  cases (writeReg_checked checked s).symm.trans h
  obtain ⟨-, refused⟩ | ⟨fits, written⟩ := checkedWrite_cases limit code v (storeReg r v) s
  · rw [refused]
    exact kept.raiseError holds code
  · rw [written]
    exact kept.succeed (kept.store holds checked fits)

theorem KeptByEvents.writeReg (kept : KeptByEvents P) {r : Reg} {v : Word} {s t : State} (holds : P s)
    (h : writeReg r v s = .next t) : P t := by
  cases r with
  | cmd =>
    cases decoded : decode v with
    | ok i => exact kept.exec holds ((writeReg_cmd_of_ok decoded s).symm.trans h)
    | error e =>
      cases (writeReg_cmd_of_error decoded s).symm.trans h
      exact kept.raiseError holds _
  | status =>
    cases h
    exact kept.status holds s.err (s.sticky && !v.getLsbD 8)
  | msgLen | seqIdx | seqTotal | msg | ecc => exact kept.checkedWrite holds rfl h
  | result | cursor | gridW | payLen | genN | gen | syn | gridCol =>
    cases (writeReg_readOnly rfl v s).symm.trans h
    exact kept.raiseError holds _

theorem KeptByEvents.serveEvent (kept : KeptByEvents P) {e : BusEvent} {s t : State} (holds : P s)
    (h : serveEvent e s = .next t) : P t := by
  obtain ⟨_, _, r, -, -, read⟩ | ⟨_, _, v, r, -, -, written⟩ | ⟨-, taken⟩ | fault := serveEvent_cases e s
  · cases read.symm.trans h
    exact kept.own_fields holds s.pending _
  · exact kept.writeReg (kept.own_fields holds s.pending .written) (written.symm.trans h)
  · cases taken.symm.trans h
    exact kept.own_fields kept.reset s.pending .idle
  · cases fault.symm.trans h

theorem KeptByEvents.step (kept : KeptByEvents P) {s t : State} (holds : P s) (h : step s = .next t) : P t := by
  obtain ⟨-, waits⟩ | ⟨e, rest, -, serves⟩ := step_cases s
  · cases waits.symm.trans h
    exact holds
  · exact kept.serveEvent (kept.own_fields holds rest s.response) (serves.symm.trans h)

end

/-! ### The lengths MSG_LEN and PAY_LEN -/

theorem effect_msgLen_le {i : Instr} {s : State} (short : s.msgLen.toNat ≤ 40) :
    (effect i s).msgLen.toNat ≤ 40 := by
  cases chosen : writesMsgLen i with
  | false =>
    have same : (effect i s).msgLen = s.msgLen := by rw [effect_frame]; simp [withWritten, chosen]
    rwa [same]
  | true =>
    cases i with
    | selChunk k =>
      have stored : (effect (.selChunk k) s).msgLen.toNat = chunkLen s.payLen.toNat k % 2 ^ 6 :=
        BitVec.toNat_ofNat _ _
      have capped : chunkLen s.payLen.toNat k ≤ 40 := chunkLen_le _ _
      omega
    | _ => cases chosen

theorem effect_payLen_le {i : Instr} {s : State} (passed : firstError (commandChecks i s) = .ok)
    (short : s.payLen.toNat ≤ 10200) : (effect i s).payLen.toNat ≤ 10200 := by
  cases planned : writesPlan i with
  | false =>
    have same : (effect i s).payLen = s.payLen := by rw [effect_frame]; simp [withWritten, planned]
    rwa [same]
  | true =>
    cases i with
    | plan len =>
      have stored : (effect (.plan len) s).payLen.toNat = len % 2 ^ 14 := BitVec.toNat_ofNat _ _
      have checked : len ≤ 10200 := by simpa using check_passes passed (.head _)
      omega
    | _ => cases planned

/-- The host's stores keep the bound of R65 on MSG_LEN. -/
theorem storeReg_msgLen_le {r : Reg} {limit : Nat} {code : ErrCode} {v : Word} {s : State}
    (checked : checkedLimit r = some (limit, code)) (fits : v.toNat ≤ limit) (short : s.msgLen.toNat ≤ 40) :
    (storeReg r v s).msgLen.toNat ≤ 40 := by
  cases r with
  | msgLen =>
    cases checked
    have stored : (storeReg .msgLen v s).msgLen.toNat = v.toNat % 2 ^ 6 := BitVec.toNat_setWidth _ _
    omega
  | _ => exact short

/-! ### The generator (R25, R26) -/

/-- ASSEMBLE leaves the generator and the parity that it encoded with (R217). -/
theorem effect_assemble_gen (s : State) : (effect .assemble s).gen = (encodedState s).gen := by
  rw [effect_assemble, setResult_gen, drawLine_gen]

theorem effect_assemble_genN (s : State) : (effect .assemble s).genN = (encodedState s).genN := by
  rw [effect_assemble, setResult_genN, drawLine_genN]

theorem effect_assemble_ecc (s : State) : (effect .assemble s).ecc = (encodedState s).ecc := by
  rw [effect_assemble, setResult_ecc, drawLine_ecc]

/-- A number passes whole through a register wide enough for it. -/
theorem toNat_ofNat_of_lt {w v : Nat} (h : v < 2 ^ w) : (BitVec.ofNat w v).toNat = v :=
  (BitVec.toNat_ofNat v w).trans (Nat.mod_eq_of_lt h)

/-- GEN_N holds every legal count whole. -/
theorem ofNat_four_toNat {n : Nat} (few : n ≤ 10) : (BitVec.ofNat 4 n).toNat = n := toNat_ofNat_of_lt (by omega)

/-- The generator a command builds is Gen(n) for the count n that it stores. -/
theorem effect_builds {i : Instr} {s : State} (builds : buildsGenerator i = true)
    (passed : firstError (commandChecks i s) = .ok) (short : s.msgLen.toNat ≤ 40) :
    ∃ n ≤ 10, (effect i s).gen = pad 10 (generator n) ∧ (effect i s).genN.toNat = n := by
  cases i with
  | rsGen n =>
    obtain ⟨-, few⟩ : ¬ n = 0 ∧ n ≤ 10 := by simpa using check_passes passed (.head _)
    exact ⟨n, few, rfl, ofNat_four_toNat few⟩
  | rsEncode n =>
    obtain ⟨-, few⟩ : ¬ n = 0 ∧ n ≤ 10 := by simpa using check_passes passed (.head _)
    exact ⟨n, few, rfl, ofNat_four_toNat few⟩
  | assemble =>
    have few : eccCount (chunkLength s) ≤ 10 := (eccCount_le_iff (by decide)).2 short
    exact ⟨eccCount (chunkLength s), few, effect_assemble_gen s,
      (congrArg BitVec.toNat (effect_assemble_genN s)).trans (ofNat_four_toNat few)⟩
  | _ => cases builds

theorem effect_generator_of_not_builds {i : Instr} (builds : buildsGenerator i = false) (s : State) :
    (effect i s).gen = s.gen ∧ (effect i s).genN = s.genN := by
  constructor <;> rw [effect_frame] <;> simp [withWritten, builds]

theorem generatorInv_reset : GeneratorInv State.reset := by
  refine ⟨Nat.zero_le _, Nat.zero_le _, ?_⟩
  decide

/-- `GeneratorInv` is kept: a command that builds a generator stores it with its count, and nothing else writes GEN. -/
theorem generatorInv_kept : KeptByEvents GeneratorInv where
  reset := generatorInv_reset
  own_fields holds _ _ := holds
  status holds _ _ := holds
  effect := by
    rintro i s ⟨short, few, whole⟩ passed
    refine ⟨effect_msgLen_le short, ?_⟩
    cases builds : buildsGenerator i with
    | false =>
      obtain ⟨gen_eq, genN_eq⟩ := effect_generator_of_not_builds builds s
      rw [gen_eq, genN_eq]
      exact ⟨few, whole⟩
    | true =>
      obtain ⟨n, few, gen_eq, genN_eq⟩ := effect_builds builds passed short
      rw [gen_eq, genN_eq]
      exact ⟨few, rfl⟩
  store := by
    rintro r limit code v s ⟨short, whole⟩ checked fits
    refine ⟨storeReg_msgLen_le checked fits short, ?_⟩
    cases r <;> exact whole

/-- Settles O50: `generatorInv_kept`, over every event. -/
theorem everyStepKeepsTheGeneratorWhole : Obligations.EveryStepKeepsTheGeneratorWhole :=
  fun _ _ holds h => generatorInv_kept.step holds h

/-! ### The invariants of R41 -/

/-- Invariants 1 and 2 of R41: the cursor within a grid of at most 111 columns, and nothing drawn from it on. -/
structure GridInv (s : State) : Prop where
  within : s.x.toNat ≤ s.gridW.toNat
  narrow : s.gridW.toNat ≤ 111
  blank : ∀ c < 111, s.x.toNat ≤ c → gridColumn s c = 0#8

theorem gridInv_clearGrid {w : Nat} (narrow : w ≤ 111) (s : State) : GridInv (clearGrid w s) := by
  refine ⟨Nat.zero_le _, ?_, fun c _ _ => gridColumn_clearGrid w s c⟩
  rw [clearGrid_gridW, BitVec.toNat_ofNat]
  exact (Nat.mod_le _ _).trans narrow

/-- The columns from the new cursor on are still as they were before it. -/
theorem CursorMove.gridInv {s t : State} (move : CursorMove s t) (inv : GridInv s) : GridInv t := by
  obtain ⟨gridW_eq, forward, within, outside⟩ := move
  refine ⟨by rwa [gridW_eq], by rw [gridW_eq]; exact inv.narrow, fun c in_grid from_cursor => ?_⟩
  rw [outside c (.inr from_cursor)]
  exact inv.blank c in_grid (forward.trans from_cursor)

theorem gridInv_drawLine {s : State} (short : chunkLength s ≤ 40) : GridInv (drawLine s) := by
  have narrow : lineWidth (chunkLength s) ≤ 111 := lineWidth_le short
  have width : (clearGrid (lineWidth (chunkLength s)) s).gridW.toNat = lineWidth (chunkLength s) :=
    (BitVec.toNat_ofNat _ _).trans (Nat.mod_eq_of_lt (by omega))
  have length : (lineColumns s).length = lineWidth (chunkLength s) := by
    rw [lineColumns_length, lineWidth_eq_lineBytes_length short]
  rw [drawLine_eq_putColumns short]
  refine (cursorMove_putColumns (lineColumns s) ?_).gridInv (gridInv_clearGrid narrow s)
  rw [width, length]
  exact (Nat.zero_add _).le

theorem effect_gridInv {i : Instr} {s : State} (passed : firstError (commandChecks i s) = .ok)
    (short : s.msgLen.toNat ≤ 40) (inv : GridInv s) : GridInv (effect i s) := by
  cases starts : startsGrid i with
  | true =>
    cases i with
    | gridInit w =>
      obtain ⟨-, narrow⟩ : ¬ w = 0 ∧ w ≤ 111 := by simpa using check_passes passed (.head _)
      exact gridInv_clearGrid narrow s
    | assemble =>
      obtain ⟨within, narrow, blank⟩ := gridInv_drawLine (s := encodedState s) short
      exact ⟨within, narrow, blank⟩
    | _ => cases starts
  | false =>
    cases cursor : isCursorCommand i with
    | true => exact (effect_cursorMove cursor passed).gridInv inv
    | false =>
      obtain ⟨grid_eq, x_eq, gridW_eq⟩ : (effect i s).grid = s.grid ∧ (effect i s).x = s.x ∧
          (effect i s).gridW = s.gridW := by
        refine ⟨?_, ?_, ?_⟩ <;> rw [effect_frame] <;> simp [withWritten, starts, cursor]
      obtain ⟨within, narrow, blank⟩ := inv
      refine ⟨by rwa [x_eq, gridW_eq], by rwa [gridW_eq], ?_⟩
      simpa only [gridColumn, grid_eq, x_eq] using blank

/-- GEN is 0 from GEN_N on, with GEN_N at most 10. -/
def GeneratorCut (s : State) : Prop :=
  s.genN.toNat ≤ 10 ∧ ∀ j < 10, s.genN.toNat ≤ j → entry s.gen j = 0#8

theorem effect_generatorCut {i : Instr} {s : State} (passed : firstError (commandChecks i s) = .ok)
    (short : s.msgLen.toNat ≤ 40) (cut : GeneratorCut s) : GeneratorCut (effect i s) := by
  unfold GeneratorCut at *
  cases builds : buildsGenerator i with
  | false =>
    obtain ⟨gen_eq, genN_eq⟩ := effect_generator_of_not_builds builds s
    rwa [gen_eq, genN_eq]
  | true =>
    obtain ⟨n, few, gen_eq, genN_eq⟩ := effect_builds builds passed short
    rw [gen_eq, genN_eq]
    exact ⟨few, fun j _ beyond => entry_pad_beyond 10 _ (by rwa [generator_length])⟩

theorem stateInv_iff (s : State) : StateInv s ↔
    GridInv s ∧ s.msgLen.toNat ≤ 40 ∧ s.payLen.toNat ≤ 10200 ∧ GeneratorCut s := by
  constructor
  · rintro ⟨within, narrow, blank, short, few, plan, cut⟩
    exact ⟨⟨within, narrow, blank⟩, short, plan, few, cut⟩
  · rintro ⟨⟨within, narrow, blank⟩, short, plan, few, cut⟩
    exact ⟨within, narrow, blank, short, few, plan, cut⟩

theorem stateInv_reset : StateInv State.reset :=
  ⟨Nat.zero_le _, by decide, fun c _ _ => entry_replicate 111 c, Nat.zero_le _, Nat.zero_le _, Nat.zero_le _,
    fun j _ _ => entry_replicate 10 j⟩

/-- `StateInv` is kept: each of its parts is, by the effects that write the registers it speaks of. -/
theorem stateInv_kept : KeptByEvents StateInv where
  reset := stateInv_reset
  own_fields holds _ _ := holds
  status holds _ _ := holds
  effect := by
    intro i s holds passed
    obtain ⟨grid, short, plan, cut⟩ := (stateInv_iff s).1 holds
    exact (stateInv_iff _).2 ⟨effect_gridInv passed short grid, effect_msgLen_le short, effect_payLen_le passed plan,
      effect_generatorCut passed short cut⟩
  store := by
    rintro r limit code v s ⟨within, narrow, blank, short, others⟩ checked fits
    have short' := storeReg_msgLen_le checked fits short
    cases r <;> exact ⟨within, narrow, blank, short', others⟩

/-- Settles O49: `stateInv_kept`, over every event. -/
theorem everyStepKeepsTheStateInvariant : Obligations.EveryStepKeepsTheStateInvariant :=
  fun _ _ holds h => stateInv_kept.step holds h

/-- Settles O48: at reset every register is 0, and Gen(0) has no coefficients. -/
theorem resetMeetsTheInvariants : Obligations.ResetMeetsTheInvariants :=
  ⟨stateInv_reset, generatorInv_reset⟩

end Sys2Proof.Machine
end

