-- ==== Sys2Proof/Proofs/CodewordCommands.lean ====
section
/-! The commands of spec/40_gf_arithmetic.md and spec/41_reed_solomon.md: each completes with the value of its rule, the
products and powers of α by the laws of the field, the codewords by those of the remainder and the syndromes. -/

namespace Sys2Proof.Machine

/-! ### Field commands (R125 to R127) -/

/-- EXP and the doublings of 1 agree as numbers. -/
theorem expTable_toNat (i : Nat) : (expTable i).toNat = alphaPower i := by
  induction i with
  | zero => rfl
  | succ i ih => rw [expTable_succ, doubled_toNat, ih, alphaPower]

/-- Settles O10: GF_MUL has no check, and the table product is the polynomial product. -/
theorem gfMulPutsTheProductInResult : Obligations.GfMulPutsTheProductInResult := by
  intro a b s
  have zext : BitVec.ofNat 16 (gfMul a b).toNat = (fieldProduct a b).setWidth 16 := by
    rw [BitVec.ofNat_toNat, gfMul_eq_fieldProduct]
  rw [← zext]
  rfl

/-- Settles O11: GF_EXP has no check, and EXP holds the powers of α. -/
theorem gfExpPutsThePowerOfAlphaInResult : Obligations.GfExpPutsThePowerOfAlphaInResult := by
  intro i s _
  rw [← expTable_toNat]
  rfl

/-- Settles O12: the exponent is LOG[a], below 255 and undone by EXP. -/
theorem gfLogFindsTheExponent : Obligations.GfLogFindsTheExponent := by
  refine fun a s => ⟨fun ha => ⟨(logTable a).toNat, logTable_lt ha, ?_, ?_⟩, rfl⟩
  · rw [← expTable_toNat, expTable_logTable ha]
  · exact exec_of_passes (by simpa [commandChecks, BitVec.toNat_eq] using ha)

/-! ### Syndromes (R145) -/

/-- Horner's rule gives the sum of the terms. -/
theorem syndrome_eq_termSum (c : List Symbol) (i : Nat) : syndrome c i = termSum c i := by
  induction c with
  | nil => rfl
  | cons a c ih => rw [syndrome_cons, ih, termSum, gfMul_eq_fieldProduct, ofNat_alphaPower]

/-- The symbols before a suffix are multiplied by the power of α that its length gives. -/
theorem syndrome_append (c d : List Symbol) (i : Nat) :
    syndrome (c ++ d) i = gfMul (syndrome c i) (expTable (i * d.length)) ^^^ syndrome d i := by
  rw [syndrome, List.foldl_append, horner_from]
  rfl

theorem syndrome_zero_eq_foldr_xor (c : List Symbol) : syndrome c 0 = c.foldr (· ^^^ ·) 0#8 := by
  induction c with
  | nil => rfl
  | cons a c ih =>
    have one : expTable 0 = 1#8 := rfl
    rw [syndrome_cons, ih, Nat.zero_mul, one, gfMul_one_right, List.foldr_cons]

/-- An error on one symbol adds its own term. -/
theorem syndrome_error (before after : List Symbol) (a e : Symbol) (i : Nat) :
    syndrome (before ++ (a ^^^ e) :: after) i =
      syndrome (before ++ a :: after) i ^^^ gfMul e (expTable (i * after.length)) := by
  rw [syndrome_append, syndrome_append, syndrome_cons, syndrome_cons, gfMul_xor_left, List.length_cons,
    List.length_cons]
  ac_rfl

/-- Settles O55: the three clauses are the lemmas above. -/
theorem syndromeIsTheValueAtThePowerOfAlpha : Obligations.SyndromeIsTheValueAtThePowerOfAlpha := by
  refine ⟨syndrome_eq_termSum, syndrome_zero_eq_foldr_xor, fun before after a e i => ?_⟩
  rw [syndrome_error, gfMul_eq_fieldProduct, ofNat_alphaPower]

/-! ### The generator in GEN (R147) -/

/-- Gen(n) is row n of the table of section 3. -/
theorem generator_eq_table {n : Nat} (pos : 1 ≤ n) (few : n ≤ 10) :
    generator n = generatorTable.getD (n - 1) [] := by
  obtain ⟨-, table⟩ := generatorIsTheProductOverItsRoots
  rw [← table, List.getD_eq_getElem?_getD, List.getElem?_map, List.getElem?_range (by omega), Option.map_some,
    Option.getD_some, Nat.sub_add_cancel pos]

/-- GEN after `installGenerator`: the table's row, then zeros. -/
theorem entry_gen_installGenerator {n : Nat} (pos : 1 ≤ n) (few : n ≤ 10) (s : State) {j : Nat} (h : j < 10) :
    entry (installGenerator n s).gen j = (generatorTable.getD (n - 1) []).getD j 0#8 := by
  rw [installGenerator_gen, entry_pad 10 _ h, generator_eq_table pos few]

/-- Settles O17: the count is legal, and Gen(n) is the table's row. -/
theorem rsGenInstallsTheGenerator : Obligations.RsGenInstallsTheGenerator := by
  intro n s pos few
  have legal : eccCountLegal n = true := (eccCountLegal_iff n).2 ⟨pos, few⟩
  refine ⟨_, exec_of_passes (by simp [commandChecks, badCount_eq_not_eccCountLegal, legal]),
    ofNat_four_toNat few, fun j h => ?_, rfl⟩
  exact entry_gen_installGenerator pos few s h

/-! ### The parity in ECC (R148, R149) -/

/-- ECC after `installRemainder`, up to the generator's degree: the remainder. -/
theorem parity_installRemainder {g : List Symbol} (few : g.length ≤ 10) (s : State) :
    parity g.length (installRemainder g s) = remainder (message s) g := by
  have whole := take_pad 10 (remainder (message s) g) (by rwa [remainder_length])
  rwa [remainder_length] at whole

/-- ECC after `installRemainder`, beyond the generator's degree: 0. -/
theorem entry_ecc_installRemainder (g : List Symbol) (s : State) {j : Nat} (h : g.length ≤ j) :
    entry (installRemainder g s).ecc j = 0#8 :=
  entry_pad_beyond 10 _ (by rwa [remainder_length])

/-- With the parity of Gen(n) in ECC, MSG ++ ECC is a codeword. -/
theorem syndrome_installRemainder {n : Nat} (few : n ≤ 10) (s : State) {i : Nat} (h : i < n) :
    syndrome (message s ++ parity n (installRemainder (generator n) s)) i = 0#8 := by
  have inECC := parity_installRemainder (g := generator n) (by rwa [generator_length]) s
  rw [generator_length] at inECC
  rw [inECC, syndrome_append_remainder _ h]

theorem currentGenerator_of_generatorInv {s : State} (inv : GeneratorInv s) :
    currentGenerator s = generator s.genN.toNat := by
  obtain ⟨-, few, whole⟩ := inv
  have stored := take_pad 10 (generator s.genN.toNat) (by rwa [generator_length])
  rwa [generator_length, ← whole] at stored

/-- Settles O18: GEN holds Gen(GEN_N), so the parity is that of Gen(GEN_N). -/
theorem rsRemMakesACodeword : Obligations.RsRemMakesACodeword := by
  intro s generator_there message_there inv
  have passed : firstError (commandChecks .rsRem s) = .ok := by
    simp only [commandChecks, toNat_beq_zero]
    simp [generator_there, message_there]
  have built := currentGenerator_of_generatorInv inv
  obtain ⟨-, few, -⟩ := inv
  refine ⟨_, exec_of_passes passed, ?_⟩
  rw [effect, built]
  exact ⟨fun i h => syndrome_installRemainder few s h,
    fun j _ beyond => entry_ecc_installRemainder _ s (by rwa [generator_length]), rfl⟩

section
variable {n : Nat} {s : State} (pos : 1 ≤ n) (few : n ≤ 10) (message_there : s.msgLen ≠ 0#6)
include pos few message_there

/-- RS_ENCODE of a legal count and a message completes. -/
theorem exec_rsEncode : exec (.rsEncode n) s = .next (succeed (encodeMessage n s)) := by
  have legal : eccCountLegal n = true := (eccCountLegal_iff n).2 ⟨pos, few⟩
  have nonempty : s.msgLen.toNat ≠ 0 := fun zero => message_there (BitVec.eq_of_toNat_eq zero)
  exact exec_of_passes (rsEncode_passes legal (Nat.one_le_iff_ne_zero.2 nonempty))

/-- RS_SYND of a legal count and a message completes. -/
theorem exec_rsSynd : exec (.rsSynd n) s = .next (succeed (effect (.rsSynd n) s)) :=
  exec_of_passes (by
    have legal : eccCountLegal n = true := (eccCountLegal_iff n).2 ⟨pos, few⟩
    simp only [commandChecks, badCount_eq_not_eccCountLegal, toNat_beq_zero]
    simp [legal, message_there])

end

/-- Settles O19: the parity is that of the generator just built. -/
theorem rsEncodeMakesACodeword : Obligations.RsEncodeMakesACodeword := by
  intro n s pos few message_there
  refine ⟨_, exec_rsEncode pos few message_there, ofNat_four_toNat few,
    fun j h => entry_gen_installGenerator pos few s h, fun i h => ?_, fun j _ beyond => ?_, rfl⟩
  · exact syndrome_installRemainder few (installGenerator n s) h
  · exact entry_ecc_installRemainder _ (installGenerator n s) (by rwa [generator_length])

/-! ### The syndromes in SYN (R151) -/

theorem entry_pad_syndromes (c : List Symbol) {n i : Nat} (few : n ≤ 10) (h : i < n) :
    entry (pad 10 (syndromes c n)) i = syndrome c i := by
  rw [entry_pad 10 _ (by omega), syndromes, List.getD_eq_getElem?_getD, List.getElem?_map, List.getElem?_range h,
    Option.map_some, Option.getD_some]

theorem entry_pad_syndromes_beyond (c : List Symbol) {n i : Nat} (h : n ≤ i) :
    entry (pad 10 (syndromes c n)) i = 0#8 :=
  entry_pad_beyond 10 _ (by rwa [syndromes_length])

/-- The verdict's test on the list of syndromes. -/
theorem syndromes_all_zero_iff (c : List Symbol) (n : Nat) :
    (syndromes c n).all (· == 0#8) = true ↔ ∀ i < n, syndrome c i = 0#8 := by
  simp [syndromes]

/-- RESULT after RS_SYND of a codeword, and of any other word. -/
theorem rsSynd_result_of_codeword {n : Nat} {s : State}
    (codeword : ∀ i < n, syndrome (message s ++ parity n s) i = 0#8) :
    (effect (.rsSynd n) s).result = 1#16 := by
  rw [effect, (syndromes_all_zero_iff _ n).2 codeword]
  rfl

theorem rsSynd_result_of_error {n i : Nat} {s : State} (h : i < n)
    (error : syndrome (message s ++ parity n s) i ≠ 0#8) : (effect (.rsSynd n) s).result = 0#16 := by
  rw [effect, if_neg fun all_zero => error ((syndromes_all_zero_iff _ n).1 all_zero i h)]
  rfl

/-- Settles O20: SYN holds the syndromes, and the verdict is read off them. -/
theorem rsSyndEvaluatesTheCodeword : Obligations.RsSyndEvaluatesTheCodeword := by
  intro n s pos few message_there
  have syn (i : Nat) (h : i < n) : entry (effect (.rsSynd n) s).syn i = syndrome (message s ++ parity n s) i :=
    entry_pad_syndromes _ few h
  refine ⟨_, exec_rsSynd pos few message_there, fun i h => ?_, fun i _ beyond => entry_pad_syndromes_beyond _ beyond,
    fun all_zero => ?_, fun ⟨i, h, error⟩ => ?_, rfl⟩
  · exact ⟨syn i h, (syn i h).trans (syndrome_eq_termSum _ i)⟩
  · exact rsSynd_result_of_codeword fun i h => (syn i h).symm.trans (all_zero i h)
  · exact rsSynd_result_of_error h fun zero => error ((syn i h).trans zero)

/-- The syndromes of a codeword, in SYN. -/
theorem pad_syndromes_of_codeword {c : List Symbol} {n : Nat} (few : n ≤ 10)
    (codeword : ∀ i < n, syndrome c i = 0#8) : pad 10 (syndromes c n) = Vector.replicate 10 0#8 := by
  apply vector_ext_entry
  intro i _
  rw [entry_replicate]
  rcases Nat.lt_or_ge i n with inside | beyond
  · rw [entry_pad_syndromes c few inside, codeword i inside]
  · exact entry_pad_syndromes_beyond c beyond

/-- Settles O21: RS_ENCODE leaves a codeword, whose syndromes are 0. -/
theorem rsSyndAcceptsWhatRsEncodeMade : Obligations.RsSyndAcceptsWhatRsEncodeMade := by
  intro n s pos few message_there
  have codeword (i : Nat) (h : i < n) :
      syndrome (message (succeed (encodeMessage n s)) ++ parity n (succeed (encodeMessage n s))) i = 0#8 :=
    syndrome_installRemainder few (installGenerator n s) h
  refine ⟨_, exec_rsEncode pos few message_there, ?_⟩
  rw [exec_rsSynd (s := succeed (encodeMessage n s)) pos few message_there, ← pad_syndromes_of_codeword few codeword,
    ← rsSynd_result_of_codeword codeword]
  rfl

end Sys2Proof.Machine
end

