-- ==== Sys2Proof/Proofs/GridCommands.lean ====
section
/-! The commands of spec/42_chunk_planner.md to spec/44_grid_assembler.md: the planner's registers, the columns a cursor
command writes, and the whole line that ASSEMBLE draws. -/

namespace Sys2Proof.Machine

/-! ### Refused commands -/

/-- A command whose first failing check has code c raises it and changes nothing else. -/
theorem exec_of_fails {i : Instr} {s : State} {c : ErrCode} (fails : firstError (commandChecks i s) = c)
    (error : c ≠ .ok) : exec i s = .next { s with err := c, sticky := true } := by
  rw [exec_eq, fails, if_neg error]
  rfl

/-! ### Chunk planner (R171, R172) -/

/-- Settles O23: the check is the bound of the rule, and the registers hold the plan's numbers whole. -/
theorem planCountsTheChunks : Obligations.PlanCountsTheChunks := by
  refine fun len s => ⟨fun short => ?_, fun long => ?_⟩
  · have count : chunkCount len ≤ 255 := by simp only [chunkCount, Config.msgCap]; omega
    exact ⟨_, exec_of_passes (by simpa [commandChecks] using short), toNat_ofNat_of_lt (by omega),
      toNat_ofNat_of_lt (by omega), rfl, toNat_ofNat_of_lt (by omega), rfl⟩
  · exact exec_of_fails (by simp [commandChecks, long]) (by decide)

/-- Settles O24: a chunk that starts inside the payload has an index of 8 bits, a length of 1 to 40 and an offset below
10240. -/
theorem selChunkSelectsOneChunk : Obligations.SelChunkSelectsOneChunk := by
  refine fun k s byte => ⟨fun inside => ?_, fun beyond => ?_⟩
  · have length : (BitVec.ofNat 6 (chunkLen s.payLen.toNat k)).toNat = chunkLen s.payLen.toNat k :=
      toNat_ofNat_of_lt ((chunkLen_le _ _).trans_lt (by decide))
    have some_symbol : 1 ≤ chunkLen s.payLen.toNat k := chunkLen_pos (lt_chunkCount_iff.2 inside)
    refine ⟨_, exec_of_passes (by simpa [commandChecks] using inside), toNat_ofNat_of_lt byte, length,
      some_symbol.trans_eq length.symm, toNat_ofNat_of_lt ?_, rfl⟩
    simp only [chunkOffset, Config.msgCap]
    omega
  · exact exec_of_fails (by simp [commandChecks, beyond]) (by decide)

/-! ### Cursor commands (R192 to R194, R215, R216) -/

/-- `t` is `s` with the columns `cs` written at the cursor, the cursor moved past them, and ERR cleared. -/
structure WroteColumns (cs : List Column) (s t : State) : Prop where
  x_eq : t.x.toNat = s.x.toNat + cs.length
  column : ∀ c, gridColumn t c =
    if s.x.toNat ≤ c ∧ c < s.x.toNat + cs.length then cs.getD (c - s.x.toNat) 0#8 else gridColumn s c
  frame : t = { s with grid := t.grid, x := t.x, err := .ok }

theorem wroteColumns_putColumns {cs : List Column} {s : State} (fits : s.x.toNat + cs.length ≤ s.gridW.toNat)
    (narrow : s.gridW.toNat ≤ 111) : WroteColumns cs s (succeed (putColumns cs s)) where
  x_eq := putColumns_x_toNat cs (by omega)
  column := gridColumn_putColumns cs (fits.trans narrow)
  frame := congrArg succeed (putColumns_frame cs s)

/-- The column at place k of those written. -/
theorem WroteColumns.written {cs : List Column} {s t : State} (wrote : WroteColumns cs s t) {k : Nat}
    (h : k < cs.length) : gridColumn t (s.x.toNat + k) = cs.getD k 0#8 := by
  rw [wrote.column, if_pos (by omega), Nat.add_sub_cancel_left]

/-- Every column outside those written. -/
theorem WroteColumns.kept {cs : List Column} {s t : State} (wrote : WroteColumns cs s t) {c : Nat}
    (outside : c < s.x.toNat ∨ s.x.toNat + cs.length ≤ c) : gridColumn t c = gridColumn s c := by
  rw [wrote.column, if_neg (by omega)]

theorem exec_colWrite {s : State} (fits : s.x.toNat + 1 ≤ s.gridW.toNat) (v : BitVec 4) (m : Bool) :
    exec (.colWrite v m) s = .next (succeed (putColumns [columnOf s.x.toNat v m] s)) :=
  exec_of_passes (by simpa [commandChecks] using fits)

theorem exec_byteWrite {s : State} (fits : s.x.toNat + 2 ≤ s.gridW.toNat) (d : Symbol) (m : Bool) :
    exec (.byteWrite d m) s = .next (succeed (putColumns (byteColumns s.x.toNat m d) s)) :=
  exec_of_passes (by simpa [commandChecks] using fits)

theorem exec_finderL {s : State} (fits : s.x.toNat + 3 ≤ s.gridW.toNat) :
    exec .finderL s = .next (succeed (putColumns leftFinderColumns s)) :=
  exec_of_passes (by simpa [commandChecks] using fits)

theorem exec_finderR {s : State} (legal : sequenceLegal s = true) (fits : s.x.toNat + 2 ≤ s.gridW.toNat) :
    exec .finderR s = .next (succeed (putColumns (rightFinderColumns s) s)) := by
  refine exec_of_passes ?_
  simp only [commandChecks, badSequence_eq_not_sequenceLegal, legal]
  simpa using fits

/-- The rows of Col as R190 lists them. -/
theorem columnRow_eq_rows (x : Nat) (v : BitVec 4) (m : Bool) {y : Nat} (h : y < 8) :
    columnRow x v m y =
      if y = 0 then x % 2 == 0 else if y = 7 then x % 2 == 1
      else xor (if y = 5 then true else if y = 6 then false else v.getLsbD (y - 1)) (!m && (y + x) % 2 == 0) := by
  interval_cases y <;> rfl

/-- Settles O27: COL_WRITE writes the one column `columnOf`, whose rows are R190's. -/
theorem colWriteWritesTheColumnAtTheCursor : Obligations.ColWriteWritesTheColumnAtTheCursor := by
  intro v m s fits narrow
  have wrote := wroteColumns_putColumns (cs := [columnOf s.x.toNat v m]) fits narrow
  refine ⟨_, exec_colWrite fits v m, wrote.x_eq, fun y row => ?_, fun c other => wrote.kept ?_, wrote.frame⟩
  · have column : gridColumn _ s.x.toNat = columnOf s.x.toNat v m := wrote.written (k := 0) (by simp)
    rw [gridBit, column, columnOf_row _ v m row, columnRow_eq_rows _ v m row]
  · simp only [List.length_singleton]
    omega

/-- hi(d) of R12 as a shift; lo(d) is the truncation by definition. -/
theorem hi_eq_shift (d : Symbol) : hi d = (d >>> 4).setWidth 4 := by
  apply BitVec.eq_of_getLsbD_eq
  intro k hk
  simp [hi, hk]

theorem lo_eq_setWidth (d : Symbol) : lo d = d.setWidth 4 := by
  apply BitVec.eq_of_getLsbD_eq
  intro k hk
  simp [lo, hk]

/-- Settles O28: BYTE_WRITE writes the columns of the two nibbles. -/
theorem byteWriteWritesLowThenHighNibble : Obligations.ByteWriteWritesLowThenHighNibble := by
  intro d m s fits narrow
  have wrote := wroteColumns_putColumns (cs := byteColumns s.x.toNat m d) fits narrow
  refine ⟨_, exec_byteWrite fits d m, wrote.x_eq, ?_, ?_, fun c other next => wrote.kept ?_, wrote.frame⟩
  · rw [← lo_eq_setWidth]
    exact wrote.written (k := 0) (by simp [byteColumns])
  · rw [← hi_eq_shift]
    exact wrote.written (k := 1) (by simp [byteColumns])
  · simp only [byteColumns, List.length_cons, List.length_nil]
    omega

/-- Settles O32: the three columns of FINDER_L are all 0xE7. -/
theorem finderLWritesThreeSolidColumns : Obligations.FinderLWritesThreeSolidColumns := by
  intro s fits narrow
  have wrote := wroteColumns_putColumns (cs := leftFinderColumns) fits narrow
  have solid (k : Nat) (h : k < 3) : leftFinderColumns.getD k 0#8 = 0xE7#8 := by
    rw [leftFinderColumns, List.getD_replicate _ h, leftFinderColumn_eq]
  refine ⟨_, exec_finderL fits, wrote.x_eq, fun c => ?_, wrote.frame⟩
  rw [wrote.column, leftFinderColumns_length]
  split
  next inside => exact solid _ (by omega)
  next => rfl

/-- The right-finder columns of R213, by the sequence number. -/
theorem rightFinderColumns_getD (s : State) :
    (rightFinderColumns s).getD 0 0#8 =
      (if s.seqIdx.toNat + 1 = s.seqTotal.toNat ∨ (s.seqIdx.toNat + 1) % 2 = 0 then 0xDB#8 else 0xC3#8) ∧
    (rightFinderColumns s).getD 1 0#8 =
      (if s.seqIdx.toNat + 1 = s.seqTotal.toNat ∨ (s.seqIdx.toNat + 1) % 2 = 1 then 0xDB#8 else 0xC3#8) := by
  simp only [rightFinderColumns, List.getD_cons_zero, List.getD_cons_succ, rightFinderColumn_eq]
  by_cases last : s.seqIdx.toNat + 1 = s.seqTotal.toNat
  · simp [rightFinderBits_of_last last, last]
  · simp [rightFinderBits_of_not_last last, last]

/-- Settles O33: FINDER_R writes the columns of the two sequence bits, and checks the sequence registers first. -/
theorem finderRMarksParityAndTheLastChunk : Obligations.FinderRMarksParityAndTheLastChunk := by
  refine fun s => ⟨fun total_pos idx_lt fits narrow => ?_, fun illegal => ?_⟩
  · have legal : sequenceLegal s = true := (sequenceLegal_iff s).2 ⟨total_pos, idx_lt⟩
    have wrote := wroteColumns_putColumns (cs := rightFinderColumns s) fits narrow
    obtain ⟨left, right⟩ := rightFinderColumns_getD s
    refine ⟨_, exec_finderR legal fits, wrote.x_eq, ?_, ?_, fun c other next => wrote.kept ?_, wrote.frame⟩
    · exact (wrote.written (k := 0) (by simp)).trans left
    · exact (wrote.written (k := 1) (by simp)).trans right
    · rw [rightFinderColumns_length]
      omega
  · exact exec_of_fails (by simp [commandChecks, illegal]) (by decide)

/-- Settles O29: SKIP has room for its columns and moves the cursor. -/
theorem skipMovesTheCursorOnly : Obligations.SkipMovesTheCursorOnly := by
  intro k s fits
  exact ⟨_, exec_of_passes (by simpa [commandChecks] using fits), advance_x_toNat (fits.trans_lt s.gridW.isLt), rfl⟩

/-- Settles O30: each of these commands has the cursor check, FINDER_R after a sequence check that passes. -/
theorem columnsThatDoNotFitAreRefusedWhole : Obligations.ColumnsThatDoNotFitAreRefusedWhole := by
  refine fun s => ⟨fun full v m => ?_, fun full d m => ?_, fun full => ?_, fun k full => ?_,
    fun full total_pos idx_lt => ?_⟩
  case refine_5 =>
    have legal : sequenceLegal s = true := (sequenceLegal_iff s).2 ⟨total_pos, idx_lt⟩
    refine exec_of_fails ?_ (by decide)
    simp only [commandChecks, badSequence_eq_not_sequenceLegal, legal]
    simp [full]
  all_goals exact exec_of_fails (by simp [commandChecks, full]) (by decide)

/-! ### GRID_INIT (R214) -/

/-- Settles O31: the check is the range of the rule, and a cleared grid holds 0 in every column. -/
theorem gridInitClearsEveryColumn : Obligations.GridInitClearsEveryColumn := by
  refine fun w s => ⟨fun pos narrow => ?_, fun outside => ?_⟩
  · exact ⟨_, exec_of_passes (gridInit_passes pos narrow s), toNat_ofNat_of_lt (by omega), rfl,
      fun c => gridColumn_clearGrid w s c, rfl⟩
  · exact exec_of_fails (by simp [commandChecks, outside]) (by decide)

/-! ### ASSEMBLE (R217) -/

/-- The bytes of the line: the message, then the parity (R211). -/
theorem lineBytes_getD_of_message {s : State} (short : chunkLength s ≤ 40) {i : Nat} (h : i < chunkLength s) :
    (lineBytes s).getD i 0#8 = entry s.msg i := by
  have length : (message s).length = chunkLength s := by simp [message, Nat.min_eq_left short]
  rw [lineBytes, List.getD_append _ _ _ _ (by omega), message, List.getD_eq_getElem?_getD, List.getElem?_take_of_lt h,
    ← List.getD_eq_getElem?_getD, entry]

theorem lineBytes_getD_of_parity {s : State} (short : chunkLength s ≤ 40) {j : Nat}
    (h : j < eccCount (chunkLength s)) : (lineBytes s).getD (chunkLength s + j) 0#8 = entry s.ecc j := by
  have length : (message s).length = chunkLength s := by simp [message, Nat.min_eq_left short]
  rw [lineBytes, List.getD_append_right _ _ _ _ (by omega), length, Nat.add_sub_cancel_left, parity,
    List.getD_eq_getElem?_getD, List.getElem?_take_of_lt h, ← List.getD_eq_getElem?_getD, entry]

/-- The two columns of byte t of the line. -/
theorem lineColumns_getD_of_byte (s : State) {t : Nat} (h : t < (lineBytes s).length) :
    (lineColumns s).getD (8 + 2 * t) 0#8 = columnOf (8 + 2 * t) (lo ((lineBytes s).getD t 0#8)) false ∧
    (lineColumns s).getD (9 + 2 * t) 0#8 = columnOf (9 + 2 * t) (hi ((lineBytes s).getD t 0#8)) false := by
  obtain ⟨low, high⟩ := bytesColumns_getD false 8 (lineBytes s) h
  refine ⟨(lineColumns_getD_of_lineBytes s (by omega)).trans low, ?_⟩
  have place : 9 + 2 * t = 8 + (2 * t + 1) := by omega
  rw [place, lineColumns_getD_of_lineBytes s (by omega), high, Nat.add_assoc]

/-- The left finder and the quiet-zone column after it. -/
theorem lineColumns_getD_of_leftFinder (s : State) {c : Nat} (h : c < 3) : (lineColumns s).getD c 0#8 = 0xE7#8 := by
  have solid : leftFinderColumns.getD c 0#8 = 0xE7#8 := by
    rw [leftFinderColumns, List.getD_replicate _ h, leftFinderColumn_eq]
  simp only [lineColumns, List.append_assoc]
  rw [List.getD_append _ _ _ _ (by simpa using h), solid]

theorem lineColumns_getD_of_first_quiet (s : State) : (lineColumns s).getD 3 0#8 = 0#8 := by
  simp only [lineColumns, List.append_assoc]
  rw [List.getD_append_right _ _ _ _ (by simp)]
  rfl

/-- The quiet-zone column before the right finder. -/
theorem lineColumns_getD_of_last_quiet (s : State) :
    (lineColumns s).getD (8 + 2 * (lineBytes s).length) 0#8 = 0#8 := by
  have before : (leftFinderColumns ++ [0#8] ++ bytesColumns true 4 [sequenceId s, s.seqTotal] ++
      bytesColumns false 8 (lineBytes s)).length = 8 + 2 * (lineBytes s).length := by
    simp
    omega
  rw [lineColumns, List.getD_append _ _ _ _ (by simp; omega), List.getD_append_right _ _ _ _ (by omega), before,
    Nat.sub_self]
  rfl

theorem lineColumns_getD_beyond (s : State) {c : Nat} (h : 11 + 2 * (lineBytes s).length ≤ c) :
    (lineColumns s).getD c 0#8 = 0#8 :=
  List.getD_eq_default _ _ (by rwa [lineColumns_length])

theorem drawLine_x_toNat {s : State} (short : chunkLength s ≤ 40) :
    (drawLine s).x.toNat = 11 + 2 * (lineBytes s).length := by
  have fits : 11 + 2 * (lineBytes s).length ≤ 111 := lineWidth_eq_lineBytes_length short ▸ lineWidth_le short
  rw [drawLine_eq_putColumns short, putColumns_clearGrid_x_toNat (by rw [lineColumns_length]; omega),
    lineColumns_length]

/-- Settles O34: ASSEMBLE passes its checks, RS_ENCODE passes its own with the same parity, and each column is the one
that `lineColumns` has at its place. -/
theorem assembleDrawsTheLayout : Obligations.AssembleDrawsTheLayout := by
  intro s nonempty short total_pos idx_lt len n w
  have few : n ≤ 10 := (eccCount_le_iff (by decide)).2 short
  have legal : eccCountLegal n = true := (eccCountLegal_iff n).2 ⟨le_trans (by decide) (le_max_left 4 _), few⟩
  have assembled := exec_of_passes (assemble_passes nonempty ((sequenceLegal_iff s).2 ⟨total_pos, idx_lt⟩))
  have encoded : exec (.rsEncode n) s = .next (succeed (encodedState s)) :=
    exec_of_passes (rsEncode_passes legal nonempty)
  have length : (lineBytes (encodedState s)).length = len + n := lineBytes_length (s := encodedState s) short
  have width : w = 11 + 2 * (lineBytes (encodedState s)).length := by omega
  have column (c k : Nat) (place : c = k) : gridColumn (succeed (effect .assemble s)) c =
      (lineColumns (encodedState s)).getD k 0#8 := place ▸ gridColumn_of_assembled short assembled rfl c
  have meta_column (k : Nat) (h : k < 4) := (column (4 + k) _ rfl).trans (lineColumns_getD_of_meta (encodedState s) h)
  have byte_column (t : Nat) (h : t < len + n) := lineColumns_getD_of_byte (encodedState s) (h.trans_eq length.symm)
  obtain ⟨left, right⟩ := rightFinderColumns_getD (encodedState s)
  refine ⟨_, _, assembled, encoded, rfl, ?gen, ?genN, ?ecc, ?gridW, ?x, ?result, ?left_finder,
    ?quiet, meta_column 0 (by decide), meta_column 1 (by decide), meta_column 2 (by decide),
    meta_column 3 (by decide), fun i h => ?message, fun j h => ?parity, ?last_quiet, ?left_bit, ?right_bit,
    fun c beyond => ?beyond, ?frame⟩
  case gen => exact effect_assemble_gen s
  case genN => exact effect_assemble_genN s
  case ecc => exact effect_assemble_ecc s
  case gridW => exact (gridW_of_assembled short assembled rfl).trans width.symm
  case x => exact (drawLine_x_toNat (s := encodedState s) short).trans width.symm
  case result => exact toNat_ofNat_of_lt (v := w) (by omega)
  case left_finder => exact fun c h => (column c c rfl).trans (lineColumns_getD_of_leftFinder (encodedState s) h)
  case quiet => exact (column 3 3 rfl).trans (lineColumns_getD_of_first_quiet (encodedState s))
  case message =>
    obtain ⟨low, high⟩ := byte_column i (by omega)
    rw [lineBytes_getD_of_message (s := encodedState s) short h] at low high
    exact ⟨(column _ _ rfl).trans low, (column _ _ rfl).trans high⟩
  case parity =>
    obtain ⟨low, high⟩ := byte_column (len + j) (by omega)
    have byte : (lineBytes (encodedState s)).getD (len + j) 0#8 = entry (encodedState s).ecc j :=
      lineBytes_getD_of_parity (s := encodedState s) short h
    rw [byte, Nat.mul_add, ← Nat.add_assoc] at low high
    exact ⟨(column _ _ rfl).trans low, (column _ _ rfl).trans high⟩
  case last_quiet =>
    exact (column _ _ (by omega)).trans (lineColumns_getD_of_last_quiet (encodedState s))
  case left_bit =>
    exact ((column _ _ (by omega)).trans (lineColumns_getD_of_rightFinder (encodedState s) 0)).trans left
  case right_bit =>
    exact ((column _ _ (by omega)).trans (lineColumns_getD_of_rightFinder (encodedState s) 1)).trans right
  case beyond =>
    exact (column c c rfl).trans (lineColumns_getD_beyond (encodedState s) (by omega))
  case frame =>
    rw [effect_assemble, drawLine_frame]
    rfl

end Sys2Proof.Machine
end

