-- ==== Sys2Proof/Proofs/BusEvents.lean ====
section
/-! One event of the window (spec/20_memory.md R61 to R68, spec/70_reset_and_hazards.md R280): the offsets of the
registers, what a read answers, what reset leaves, and which event a step serves. -/

namespace Sys2Proof.Machine

/-! ### The map (R61) -/

/-- Settles O57: the offsets are `regOffset`'s own, `mappedOffset_iff_regOffset` says that the ranges list exactly
these, and `accessedReg_regOffset` that each reaches its register. -/
theorem theRegisterMapHasTheOffsetsOfTheTable : Obligations.TheRegisterMapHasTheOffsetsOfTheTable :=
  ⟨rfl, rfl, rfl, rfl, rfl, rfl, rfl, rfl, rfl, rfl, fun _ => rfl, fun _ => ⟨rfl, rfl, rfl⟩, fun _ => rfl,
    mappedOffset_iff_regOffset, accessedReg_regOffset⟩

/-! ### Reads (R64) -/

theorem serveEvent_read_regOffset (r : Reg) (s : State) :
    serveEvent (.read (regOffset r) 4) s = .next { s with response := .data (readReg r s) } := by
  simp only [serveEvent, accessedReg_regOffset]

/-- A register of at most 32 bits reads as its own number. -/
theorem zext_toNat {n : Nat} (v : BitVec n) (narrow : n ≤ 32) : (v.setWidth 32).toNat = v.toNat :=
  BitVec.toNat_setWidth_of_le narrow

theorem zext_entry_toNat {n : Nat} (v : Vector (BitVec 8) n) (i : Fin n) :
    ((entry v i).setWidth 32).toNat = v[i].toNat := by
  rw [zext_toNat _ (by decide), entry_eq_getElem v i.isLt]
  rfl

/-- STATUS has the error code in its low byte and STICKY above it (spec/10_state.md R37). -/
theorem statusWord_toNat (s : State) : (statusWord s).toNat = (errorCode s.err).toNat + 256 * s.sticky.toNat := by
  simp only [statusWord, append_toNat, BitVec.toNat_zero, BitVec.toNat_ofBool]
  omega

/-- Settles O43: a read is `readReg` in the answer field, which `readReg` itself does not read. -/
theorem readsReturnTheRegisterAndChangeNothing : Obligations.ReadsReturnTheRegisterAndChangeNothing := by
  refine fun r s => ⟨serveEvent_read_regOffset r s, rfl, zext_toNat _ (by decide), zext_toNat _ (by decide),
    zext_toNat _ (by decide), zext_toNat _ (by decide), zext_toNat _ (by decide), zext_toNat _ (by decide),
    zext_toNat _ (by decide), zext_toNat _ (by decide), statusWord_toNat s, rfl, rfl, rfl, rfl, rfl, rfl, rfl, rfl, rfl,
    rfl, rfl, rfl, rfl, rfl, rfl, fun t => zext_entry_toNat s.msg t, fun j => ?_, fun c => zext_entry_toNat s.grid c,
    readReg_setResponse r _ s⟩
  exact ⟨zext_entry_toNat s.gen j, zext_entry_toNat s.ecc j, zext_entry_toNat s.syn j⟩

/-! ### Reset (R280) -/

/-- Every register of the window reads 0 after reset (spec/10_state.md R42). -/
theorem readReg_reset (r : Reg) : readReg r State.reset = 0#32 := by
  have zeros (n i : Nat) : (entry (Vector.replicate n 0#8) i).setWidth 32 = 0#32 := by
    rw [entry_replicate]
    rfl
  cases r with
  | msg t => exact zeros 40 t
  | gen j | ecc j | syn j => exact zeros 10 j
  | gridCol c => exact zeros 111 c
  | cmd | status | result | cursor | gridW | msgLen | seqIdx | seqTotal | payLen | genN => rfl

theorem gridBit_reset (y c : Nat) : gridBit State.reset y c = false := by
  have column : gridColumn State.reset c = 0#8 := entry_replicate 111 c
  rw [gridBit, column, BitVec.getLsbD_zero]

/-- Settles O47: every register is 0 at reset, and the reset event is defined as that state. -/
theorem resetClearsEveryRegister : Obligations.ResetClearsEveryRegister :=
  ⟨readReg_reset, rfl, rfl, gridBit_reset, fun _ => rfl⟩

/-! ### Steps -/

/-- Settles O7: a step looks at the pending events first. -/
theorem stepWithNothingPendingChangesNothing : Obligations.StepWithNothingPendingChangesNothing := by
  intro s none
  simp only [step, none]

theorem step_of_pending {s : State} {e : BusEvent} {rest : List BusEvent} (pending : s.pending = e :: rest) :
    step s = serveEvent e { s with pending := rest } := by
  simp only [step, pending]

/-- A read of a register does not depend on what is pending. -/
theorem readReg_setPending (r : Reg) (rest : List BusEvent) (s : State) :
    readReg r { s with pending := rest } = readReg r s := by
  cases r <;> rfl

/-- A step with a write to a register next is the write of that register. -/
theorem step_of_write {s : State} {r : Reg} {v : Word} {rest : List BusEvent}
    (pending : s.pending = .write (regOffset r) 4 v :: rest) :
    step s = writeReg r v { s with pending := rest, response := .written } :=
  (step_of_pending pending).trans (serveEvent_write_regOffset r v _)

/-- Settles O6: a step is `serveEvent`, whose accesses are those of the register at the offset, or a fault where there
is none. -/
theorem stepRunsTheDecodedCommand : Obligations.StepRunsTheDecodedCommand := by
  refine ⟨fun s e rest pending => ⟨step_of_pending pending, ?write, ?read, ?fault, ?reset⟩,
    fun s w rest pending => ⟨fun i decoded => ?command, fun e refused => ?error⟩⟩
  case write =>
    rintro r v rfl
    exact step_of_write pending
  case read =>
    rintro r rfl
    rw [step_of_pending pending, serveEvent_read_regOffset, readReg_setPending]
  case fault =>
    intro addr size v outside
    have none := (accessedReg_eq_none_iff addr size).2 outside
    rintro (rfl | rfl) <;> rw [step_of_pending pending]
    · exact (serveEvent_read_fault_iff addr size _).2 none
    · exact (serveEvent_write_fault_iff addr size v _).2 none
  case reset =>
    rintro rfl
    exact step_of_pending pending
  case command => exact (step_of_write pending).trans (writeReg_cmd_of_ok decoded _)
  case error => exact (step_of_write pending).trans (writeReg_cmd_of_error refused _)

end Sys2Proof.Machine
end
